-- ==== Sys2Proof/Word.lean ====
section
/-! DEFINITION. The words of the block and their plainest arithmetic (00_scope.md R7 to R9). -/

namespace Sys2Proof

/-- A byte of STRBUF. -/
abbrev Byte := BitVec 8

/-- One 64-bit half of a 128-bit value (R8), and one bus datum (R51). -/
abbrev Limb := BitVec 64

/-- A 128-bit value; its limbs are the slices of R8 (log 1). -/
abbrev U128 := BitVec 128

/-- A command word (R80). -/
abbrev CmdWord := BitVec 32

/-- A byte offset within the register window (R50). -/
abbrev Offset := BitVec 12

/-- `x.high = x[127:64]` (R8). -/
def highLimb (x : U128) : Limb := x.extractLsb' 64 64

/-- `x.low = x[63:0]` (R8). -/
def lowLimb (x : U128) : Limb := x.extractLsb' 0 64

/-- `U128(h, l)` (R8). -/
def ofLimbs (h l : Limb) : U128 := h.setWidth 128 <<< 64 ||| l.setWidth 128

/-- The number a 128-bit value denotes (R8). -/
def val (x : U128) : Nat := x.toNat

/-- `trunc_128` of a natural number (R9). -/
def trunc128 (n : Nat) : U128 := BitVec.ofNat 128 n

/-- `trunc_128` of an integer, the result in `[0, 2^128)` for negative numbers too (R9). -/
def truncInt128 (z : Int) : U128 := BitVec.ofInt 128 z

end Sys2Proof
end

