-- ==== Sys2Proof/Config.lean ====
section
/-! DEFINITION. The parameters of the block (00_scope.md R6). Every one is fixed by the spec but LATENCY, on which no
rule depends and which is left out with all time (R298, log 8); the widths, `NREG` and the field sizes are in the types
(Word.lean, Syntax.lean, Machine/State.lean). There is no free value: the spec leaves no result open. -/

namespace Sys2Proof.Config

/-- `STRBUF_SIZE`, in bytes. -/
abbrev strBufSize : Nat := 256

/-- The only access size the bus accepts, in bytes (20_memory.md R52). -/
abbrev busSize : Nat := 8

/-- The smallest legal BASE of STR (46_string.md R245). -/
abbrev minBase : Nat := 2

/-- The largest legal BASE of STR (46_string.md R245). -/
abbrev maxBase : Nat := 16

/-- The most digits a 128-bit value has in a legal base: base 2 (46_string.md R242). -/
abbrev maxDigits : Nat := 128

/-- What a byte of STRBUF that nothing has written reads as: its reset value (10_state.md R29, R35). -/
abbrev unwrittenByte : Byte := 0x00#8

end Sys2Proof.Config
end

