-- ==== Sys2Proof/Syntax.lean ====
section
/-! DEFINITION. The commands: one constructor per row of spec/opcode_table.json (30_encoding.md R86). -/

namespace Sys2Proof

/-- A register index: `i` selects `Ui` (30_encoding.md R83). -/
abbrev Reg := Fin 8

/-- The native widths of the code `W` (30_encoding.md R85); the codes 5..7 have none. -/
inductive Width where
  | bool
  | w8
  | w16
  | w32
  | w64
  deriving DecidableEq, Repr

/-- The native width in bits (R85). -/
def Width.bits : Width → Nat
  | .bool => 1
  | .w8 => 8
  | .w16 => 16
  | .w32 => 32
  | .w64 => 64

/-- A decoded command. `rd`, `ra`, `rb` and `rc` are the register fields of R81; `signed` is `S` and `w` is `W` of
format RX; `base` and `minlen` are the immediates of format S (R84). -/
inductive Instr where
  | cpy (rd ra : Reg)
  | mvz (rd ra : Reg)
  | widen (rd ra : Reg) (signed : Bool) (w : Width)
  | narrow (rd ra : Reg) (w : Width)
  | and (rd ra rb : Reg)
  | or (rd ra rb : Reg)
  | xor (rd ra rb : Reg)
  | not (rd ra : Reg)
  | shl (rd ra rb : Reg)
  | shr (rd ra rb : Reg)
  | ceq (rd ra rb : Reg)
  | cne (rd ra rb : Reg)
  | clt (rd ra rb : Reg)
  | cgt (rd ra rb : Reg)
  | cle (rd ra rb : Reg)
  | cge (rd ra rb : Reg)
  | add (rd ra rb : Reg)
  | sub (rd ra rb : Reg)
  | neg (rd ra : Reg)
  | inc (rd ra : Reg)
  | dec (rd ra : Reg)
  | mul (rd ra rb : Reg)
  | div (rd ra rb : Reg)
  | mod (rd ra rb : Reg)
  /-- `rq` receives the quotient (RD), `rr` the remainder (RC). -/
  | divmod (rq rr ra rb : Reg)
  | bitlen (rd ra : Reg)
  | str (ra : Reg) (base : BitVec 5) (minlen : BitVec 8)
  deriving DecidableEq, Repr

end Sys2Proof
end

