-- ==== Sys2Proof/WellFormed.lean ====
section
/-! DEFINITION. The extra constraints of the opcode map (30_encoding.md R86): the commands that some word encodes. -/

namespace Sys2Proof

/-- A command some word encodes. WIDEN has no signed bool (R88 f), DIVMOD needs two different destinations (R88 h);
every other constraint of R86 is already in the types of the operands. -/
def Instr.wellFormed : Instr → Bool
  | .widen _ _ signed w => !(signed && w == .bool)
  | .divmod rq rr _ _ => rq != rr
  | .cpy _ _ | .mvz _ _ | .narrow _ _ _ | .and _ _ _ | .or _ _ _ | .xor _ _ _ | .not _ _ | .shl _ _ _ | .shr _ _ _
  | .ceq _ _ _ | .cne _ _ _ | .clt _ _ _ | .cgt _ _ _ | .cle _ _ _ | .cge _ _ _ | .add _ _ _ | .sub _ _ _
  | .neg _ _ | .inc _ _ | .dec _ _ | .mul _ _ _ | .div _ _ _ | .mod _ _ _ | .bitlen _ _ | .str _ _ _ => true

end Sys2Proof
end

