-- ==== Sys2Proof/Decode.lean ====
section
/-! DEFINITION. Command words: their fields (30_encoding.md R81), the total decoder (R82, R85, R87, R88), the encoder
written from the same formats (R82, R90), and the opcode map of R86 as a table of masks and matches. -/

namespace Sys2Proof

/-- Why a word is ILLEGAL: the cases (a) to (h) of R88. All of them raise the same `Error(ILLEGAL)`. -/
inductive IllegalReason where
  /-- (a), (b): OP = 0x00 or 0x17..0x1F. -/
  | reservedOpcode
  /-- (c), (g): a must-be-zero field of the format is not zero. -/
  | mustBeZero
  /-- (d): COND = 6 or 7. -/
  | reservedCondition
  /-- (e): W = 5, 6 or 7. -/
  | reservedWidth
  /-- (f): WIDEN with W = 0 and S = 1. -/
  | signedBool
  /-- (h): DIVMOD with RD = RC. -/
  | sameDestination
  deriving DecidableEq, Repr

/-! ## Fields (R81, R84) -/

/-- OP, bits 31:27. -/
def opField (c : CmdWord) : BitVec 5 := c.extractLsb' 27 5
/-- RD, bits 26:24. -/
def rdField (c : CmdWord) : BitVec 3 := c.extractLsb' 24 3
/-- RA, bits 23:21. -/
def raField (c : CmdWord) : BitVec 3 := c.extractLsb' 21 3
/-- RB, bits 20:18. -/
def rbField (c : CmdWord) : BitVec 3 := c.extractLsb' 18 3
/-- RC, bits 17:15. -/
def rcField (c : CmdWord) : BitVec 3 := c.extractLsb' 15 3
/-- IMM, bits 14:0. -/
def immField (c : CmdWord) : BitVec 15 := c.extractLsb' 0 15
/-- COND, IMM[2:0] of format RRC. -/
def condField (c : CmdWord) : BitVec 3 := c.extractLsb' 0 3
/-- W, IMM[2:0] of format RX. -/
def widthField (c : CmdWord) : BitVec 3 := c.extractLsb' 0 3
/-- S, IMM[3] of format RX. -/
def signField (c : CmdWord) : BitVec 1 := c.extractLsb' 3 1
/-- BASE, IMM[12:8] of format S. -/
def baseField (c : CmdWord) : BitVec 5 := c.extractLsb' 8 5
/-- MINLEN, IMM[7:0] of format S. -/
def minlenField (c : CmdWord) : BitVec 8 := c.extractLsb' 0 8

/-- The register a 3-bit index selects (R83). -/
def toReg (b : BitVec 3) : Reg := b.toFin

/-- The 3-bit index of a register (R83). -/
def ofReg (r : Reg) : BitVec 3 := BitVec.ofFin r

/-- The width of a code `W`; 5..7 are reserved (R85). -/
def toWidth (b : BitVec 3) : Option Width :=
  match b with
  | 0#3 => some .bool
  | 1#3 => some .w8
  | 2#3 => some .w16
  | 3#3 => some .w32
  | 4#3 => some .w64
  | _ => none

/-- The code `W` of a width (R85). -/
def ofWidth : Width → BitVec 3
  | .bool => 0#3
  | .w8 => 1#3
  | .w16 => 2#3
  | .w32 => 3#3
  | .w64 => 4#3

/-! ## Decoding, format by format (R82) -/

/-- Format RR: RB, RC and IMM are zero. -/
def decodeRR (c : CmdWord) (k : Reg → Reg → Instr) : Except IllegalReason Instr :=
  if rbField c = 0 ∧ rcField c = 0 ∧ immField c = 0 then .ok (k (toReg (rdField c)) (toReg (raField c)))
  else .error .mustBeZero

/-- Format RRR: RC and IMM are zero. -/
def decodeRRR (c : CmdWord) (k : Reg → Reg → Reg → Instr) : Except IllegalReason Instr :=
  if rcField c = 0 ∧ immField c = 0 then
    .ok (k (toReg (rdField c)) (toReg (raField c)) (toReg (rbField c)))
  else .error .mustBeZero

/-- Format RRC: RC and IMM[14:3] are zero, COND names the comparison; 6 and 7 are reserved (R88 d). -/
def decodeCompare (c : CmdWord) : Except IllegalReason Instr :=
  let rd := toReg (rdField c)
  let ra := toReg (raField c)
  let rb := toReg (rbField c)
  if rcField c = 0 ∧ c.extractLsb' 3 12 = 0 then
    match condField c with
    | 0#3 => .ok (.ceq rd ra rb)
    | 1#3 => .ok (.cne rd ra rb)
    | 2#3 => .ok (.clt rd ra rb)
    | 3#3 => .ok (.cgt rd ra rb)
    | 4#3 => .ok (.cle rd ra rb)
    | 5#3 => .ok (.cge rd ra rb)
    | _ => .error .reservedCondition
  else .error .mustBeZero

/-- Format RX, WIDEN: RB, RC and IMM[14:4] are zero; no reserved width (R88 e), no signed bool (R88 f). -/
def decodeWiden (c : CmdWord) : Except IllegalReason Instr :=
  if rbField c = 0 ∧ rcField c = 0 ∧ c.extractLsb' 4 11 = 0 then
    match toWidth (widthField c) with
    | none => .error .reservedWidth
    | some w =>
      let signed := signField c == 1#1
      if signed && w == .bool then .error .signedBool
      else .ok (.widen (toReg (rdField c)) (toReg (raField c)) signed w)
  else .error .mustBeZero

/-- Format RX, NARROW: as WIDEN, and S is zero too (R88 g). -/
def decodeNarrow (c : CmdWord) : Except IllegalReason Instr :=
  if rbField c = 0 ∧ rcField c = 0 ∧ c.extractLsb' 4 11 = 0 ∧ signField c = 0 then
    match toWidth (widthField c) with
    | none => .error .reservedWidth
    | some w => .ok (.narrow (toReg (rdField c)) (toReg (raField c)) w)
  else .error .mustBeZero

/-- Format RRRR: IMM is zero, RD and RC differ (R88 h). -/
def decodeDivmod (c : CmdWord) : Except IllegalReason Instr :=
  if immField c = 0 then
    if rdField c = rcField c then .error .sameDestination
    else .ok (.divmod (toReg (rdField c)) (toReg (rcField c)) (toReg (raField c)) (toReg (rbField c)))
  else .error .mustBeZero

/-- Format S: RD, RB, RC and IMM[14:13] are zero. Every BASE decodes (R84). -/
def decodeStr (c : CmdWord) : Except IllegalReason Instr :=
  if rdField c = 0 ∧ rbField c = 0 ∧ rcField c = 0 ∧ c.extractLsb' 13 2 = 0 then
    .ok (.str (toReg (raField c)) (baseField c) (minlenField c))
  else .error .mustBeZero

/-- The decoder, total on every 32-bit word (R87): a command of R86, or ILLEGAL with the case of R88 (R89). -/
def decode (c : CmdWord) : Except IllegalReason Instr :=
  match opField c with
  | 0x01#5 => decodeRR c .cpy
  | 0x02#5 => decodeRR c .mvz
  | 0x03#5 => decodeWiden c
  | 0x04#5 => decodeNarrow c
  | 0x05#5 => decodeRRR c .and
  | 0x06#5 => decodeRRR c .or
  | 0x07#5 => decodeRRR c .xor
  | 0x08#5 => decodeRR c .not
  | 0x09#5 => decodeRRR c .shl
  | 0x0A#5 => decodeRRR c .shr
  | 0x0B#5 => decodeCompare c
  | 0x0C#5 => decodeRRR c .add
  | 0x0D#5 => decodeRRR c .sub
  | 0x0E#5 => decodeRR c .neg
  | 0x0F#5 => decodeRR c .inc
  | 0x10#5 => decodeRR c .dec
  | 0x11#5 => decodeRRR c .mul
  | 0x12#5 => decodeRRR c .div
  | 0x13#5 => decodeRRR c .mod
  | 0x14#5 => decodeDivmod c
  | 0x15#5 => decodeRR c .bitlen
  | 0x16#5 => decodeStr c
  | _ => .error .reservedOpcode

/-- The command word of an instruction numbered as the opcode table numbers it. A word is 32 bits and has no bytes to
lay out (R80); bits above `nbits` are zero. -/
def tableWord (nbits w : Nat) : CmdWord := BitVec.ofNat 32 (w % 2 ^ nbits)

/-- What the decoder reads from the word `w` of an opcode-table row. -/
def decodeTableWord (nbits w : Nat) : Option Instr :=
  match decode (tableWord nbits w) with
  | .ok i => some i
  | .error _ => none

/-! ## Encoding (R82, R90) -/

/-- `OP<<27 | RD<<24 | RA<<21 | RB<<18 | RC<<15 | IMM` (R90). -/
def packWord (op : BitVec 5) (rd ra rb rc : BitVec 3) (imm : BitVec 15) : CmdWord :=
  op.setWidth 32 <<< 27 ||| rd.setWidth 32 <<< 24 ||| ra.setWidth 32 <<< 21 ||| rb.setWidth 32 <<< 18 |||
  rc.setWidth 32 <<< 15 ||| imm.setWidth 32

/-- Format RR. -/
def encodeRR (op : BitVec 5) (rd ra : Reg) : CmdWord := packWord op (ofReg rd) (ofReg ra) 0 0 0

/-- Format RRR. -/
def encodeRRR (op : BitVec 5) (rd ra rb : Reg) : CmdWord := packWord op (ofReg rd) (ofReg ra) (ofReg rb) 0 0

/-- Format RRC, OP = 0x0B, with the condition code in IMM[2:0]. -/
def encodeCompare (cond : BitVec 3) (rd ra rb : Reg) : CmdWord :=
  packWord 0x0B#5 (ofReg rd) (ofReg ra) (ofReg rb) 0 (cond.setWidth 15)

/-- Format RX, with S in IMM[3] and W in IMM[2:0]. -/
def encodeRX (op : BitVec 5) (rd ra : Reg) (signed : Bool) (w : Width) : CmdWord :=
  packWord op (ofReg rd) (ofReg ra) 0 0
    ((BitVec.ofBool signed).setWidth 15 <<< 3 ||| (ofWidth w).setWidth 15)

/-- The word of a command (R86, R90); for a command that is not well formed, a word that does not decode. -/
def encode : Instr → CmdWord
  | .cpy rd ra => encodeRR 0x01#5 rd ra
  | .mvz rd ra => encodeRR 0x02#5 rd ra
  | .widen rd ra signed w => encodeRX 0x03#5 rd ra signed w
  | .narrow rd ra w => encodeRX 0x04#5 rd ra false w
  | .and rd ra rb => encodeRRR 0x05#5 rd ra rb
  | .or rd ra rb => encodeRRR 0x06#5 rd ra rb
  | .xor rd ra rb => encodeRRR 0x07#5 rd ra rb
  | .not rd ra => encodeRR 0x08#5 rd ra
  | .shl rd ra rb => encodeRRR 0x09#5 rd ra rb
  | .shr rd ra rb => encodeRRR 0x0A#5 rd ra rb
  | .ceq rd ra rb => encodeCompare 0#3 rd ra rb
  | .cne rd ra rb => encodeCompare 1#3 rd ra rb
  | .clt rd ra rb => encodeCompare 2#3 rd ra rb
  | .cgt rd ra rb => encodeCompare 3#3 rd ra rb
  | .cle rd ra rb => encodeCompare 4#3 rd ra rb
  | .cge rd ra rb => encodeCompare 5#3 rd ra rb
  | .add rd ra rb => encodeRRR 0x0C#5 rd ra rb
  | .sub rd ra rb => encodeRRR 0x0D#5 rd ra rb
  | .neg rd ra => encodeRR 0x0E#5 rd ra
  | .inc rd ra => encodeRR 0x0F#5 rd ra
  | .dec rd ra => encodeRR 0x10#5 rd ra
  | .mul rd ra rb => encodeRRR 0x11#5 rd ra rb
  | .div rd ra rb => encodeRRR 0x12#5 rd ra rb
  | .mod rd ra rb => encodeRRR 0x13#5 rd ra rb
  | .divmod rq rr ra rb => packWord 0x14#5 (ofReg rq) (ofReg ra) (ofReg rb) (ofReg rr) 0
  | .bitlen rd ra => encodeRR 0x15#5 rd ra
  | .str ra base minlen => packWord 0x16#5 0 (ofReg ra) 0 0 (base.setWidth 15 <<< 8 ||| minlen.setWidth 15)

/-! ## The opcode map as the spec prints it (R86): a second reading of every word, independent of `decode` -/

/-- A row of the opcode map: its match, its mask, its extra constraint, and the command its fields make. -/
structure OpcodeRow where
  mtch : CmdWord
  mask : CmdWord
  allowed : CmdWord → Bool
  build : CmdWord → Instr

/-- The row's test of a word: `word & mask = match` and the extra constraint (R86). -/
def OpcodeRow.accepts (r : OpcodeRow) (c : CmdWord) : Bool := (c &&& r.mask == r.mtch) && r.allowed c

/-- A row of a format with no extra constraint and two register operands. -/
def rowRR (mtch : CmdWord) (k : Reg → Reg → Instr) : OpcodeRow :=
  { mtch, mask := 0xF81FFFFF#32, allowed := fun _ => true,
    build := fun c => k (toReg (rdField c)) (toReg (raField c)) }

/-- A row of a format with no extra constraint and three register operands. -/
def rowRRR (mtch : CmdWord) (k : Reg → Reg → Reg → Instr) : OpcodeRow :=
  { mtch, mask := 0xF803FFFF#32, allowed := fun _ => true,
    build := fun c => k (toReg (rdField c)) (toReg (raField c)) (toReg (rbField c)) }

/-- The native width of a word's code `W`, where it is legal (R85). -/
def wordWidth (c : CmdWord) : Width := (toWidth (widthField c)).getD .bool

/-- The opcode map of R86, row by row in the table's order. -/
def opcodeMap : List OpcodeRow :=
  [ rowRR 0x08000000#32 .cpy,
    rowRR 0x10000000#32 .mvz,
    { mtch := 0x18000000#32, mask := 0xF81FFFF0#32,
      allowed := fun c => decide ((widthField c).toNat ≤ 4) && !(widthField c == 0#3 && signField c == 1#1),
      build := fun c => .widen (toReg (rdField c)) (toReg (raField c)) (signField c == 1#1) (wordWidth c) },
    { mtch := 0x20000000#32, mask := 0xF81FFFF8#32,
      allowed := fun c => decide ((widthField c).toNat ≤ 4),
      build := fun c => .narrow (toReg (rdField c)) (toReg (raField c)) (wordWidth c) },
    rowRRR 0x28000000#32 .and,
    rowRRR 0x30000000#32 .or,
    rowRRR 0x38000000#32 .xor,
    rowRR 0x40000000#32 .not,
    rowRRR 0x48000000#32 .shl,
    rowRRR 0x50000000#32 .shr,
    rowRRR 0x58000000#32 .ceq,
    rowRRR 0x58000001#32 .cne,
    rowRRR 0x58000002#32 .clt,
    rowRRR 0x58000003#32 .cgt,
    rowRRR 0x58000004#32 .cle,
    rowRRR 0x58000005#32 .cge ] ++
  [ rowRRR 0x60000000#32 .add,
    rowRRR 0x68000000#32 .sub,
    rowRR 0x70000000#32 .neg,
    rowRR 0x78000000#32 .inc,
    rowRR 0x80000000#32 .dec,
    rowRRR 0x88000000#32 .mul,
    rowRRR 0x90000000#32 .div,
    rowRRR 0x98000000#32 .mod,
    { mtch := 0xA0000000#32, mask := 0xF8007FFF#32,
      allowed := fun c => rdField c != rcField c,
      build := fun c =>
        .divmod (toReg (rdField c)) (toReg (rcField c)) (toReg (raField c)) (toReg (rbField c)) },
    rowRR 0xA8000000#32 .bitlen,
    { mtch := 0xB0000000#32, mask := 0xFF1FE000#32, allowed := fun _ => true,
      build := fun c => .str (toReg (raField c)) (baseField c) (minlenField c) } ]

/-- Decoding as R87 writes it: the first row that accepts the word, or ILLEGAL. -/
def decodeByRows (c : CmdWord) : Option Instr :=
  (opcodeMap.find? fun r => r.accepts c).map fun r => r.build c

end Sys2Proof
end

