-- ==== Sys2Proof/Machine/State.lean ====
section
/-! DEFINITION. The state of the block (10_state.md), the host's side of its bus and reset line (20_memory.md R51, R68),
the reasons a step can stop, and the state after reset (10_state.md R35). -/

namespace Sys2Proof.Machine

/-- The codes of STATUS.ERR (10_state.md R25); the codes 4..7 are never produced. -/
inductive ErrCode where
  /-- 0 NONE: no error is held; commands execute. -/
  | none
  /-- 1 DOMAIN: a DIV, MOD or DIVMOD had a zero divisor. -/
  | domain
  /-- 2 INVALID_ARG: a STR had a base outside 2..16. -/
  | invalidArg
  /-- 3 ILLEGAL: the command word matched no legal encoding. -/
  | illegal
  deriving DecidableEq, Repr

/-- Byte-addressed storage: the listed cells, addresses strictly rising, none holding what an unlisted address reads
as (log 9). The block's only such storage is STRBUF, addressed by the index `i` of `StrBuf[i]`. -/
abbrev Memory := List Host.Cell

/-- One host access of the bus (20_memory.md R51, R52): an offset, a size in bytes, and data for a write. -/
inductive BusAccess where
  | read (addr : Offset) (size : Nat)
  | write (addr : Offset) (size : Nat) (wdata : Limb)
  deriving DecidableEq, Repr

/-- What the bus answers (20_memory.md R52). -/
inductive BusAnswer where
  /-- `OKAY(data)`: a legal read. -/
  | data (d : Limb)
  /-- `OKAY`: a legal write. -/
  | okay
  /-- `BUS_ERROR`: an access that is not legal. -/
  | busError
  deriving DecidableEq, Repr

/-- One move of the host (20_memory.md R64, R68): an access of the bus, a level of the `rst` input
(70_reset_and_hazards.md R290), or a wait in which it does nothing. -/
inductive HostEvent where
  | access (a : BusAccess)
  | rst (level : Bool)
  | idle
  deriving DecidableEq, Repr

/-- Everything the spec gives the block (INVENTORY.md, State), and the model's own two fields for the host's side of
the bus. -/
structure State where
  /-- U0..U7 (10_state.md R20). -/
  u : Vector U128 8
  /-- STATUS.ERR (R24, R25). -/
  err : ErrCode
  /-- CTRL.IRQ_EN (R26). -/
  irqEn : Bool
  /-- ERRCMD.CMDWORD (R27). -/
  errCmd : CmdWord
  /-- STRLEN.LEN (R28). -/
  strLen : BitVec 8
  /-- StrBuf[0..255] (R29). -/
  strBuf : Memory
  /-- BUSY: a command has been accepted and has not completed (R30). -/
  busy : Bool
  /-- PENDING: the accepted word (R30). -/
  pending : CmdWord
  /-- The level of the `rst` input (70_reset_and_hazards.md R290). -/
  rst : Bool
  /-- The model's own (log 2): what the host does next, in the order of 20_memory.md R64. -/
  host : List HostEvent
  /-- The model's own (log 10): the answer of the host's latest access; none while a CMD write waits for the completion
  of its command (log 18). -/
  answer : Option BusAnswer
  deriving DecidableEq, Repr

/-- Why a step stops. -/
inductive Fault where
  /-- Raised by the step (no command raises it) when the host makes a bus access while `rst` is asserted: the block
  does not define the response (70_reset_and_hazards.md R291). Safe: the model stops where a device might go on. -/
  | accessDuringReset
  deriving DecidableEq, Repr

/-- Why a step refuses an instruction. -/
inductive Refusal where
  /-- Raised by `exec` for a command that has no meaning yet, by its mnemonic; no arm of this model raises it.
  Safe: the model stops where the hardware goes on. -/
  | notModelled (mnemonic : String)
  deriving DecidableEq, Repr

/-- The state of 10_state.md R35, with `rst` released (70_reset_and_hazards.md R292). PENDING is a value the model
names (log 5); the host asks nothing yet (log 2) and nothing has been answered (log 10). -/
def State.reset : State where
  u := Vector.replicate 8 0#128
  err := .none
  irqEn := false
  errCmd := 0#32
  strLen := 0#8
  strBuf := []
  busy := false
  pending := 0#32
  rst := false
  host := []
  answer := Option.none

end Sys2Proof.Machine
end

