-- ==== Sys2Proof/Machine/Ops.lean ====
section
/-! DEFINITION. The named operations over memory and registers, raising an error (60_exceptions.md R262) and the
return from it (R265), and the interrupt output (R264). -/

namespace Sys2Proof.Machine

/-! ## Memory -/

/-- The byte at an address; an unlisted address holds its reset value. -/
def Memory.read : Memory → Nat → Byte
  | [], _ => Config.unwrittenByte
  | (a, b) :: rest, k => if a = k then b else Memory.read rest k

/-- A cell in front of cells with higher addresses, unless it holds what an unlisted address reads as. -/
def Memory.cons (k : Nat) (v : Byte) (m : Memory) : Memory :=
  if v = Config.unwrittenByte then m else (k, v) :: m

/-- Writes one byte and keeps the canonical form. -/
def Memory.write : Memory → Nat → Byte → Memory
  | [], k, v => Memory.cons k v []
  | (a, b) :: rest, k, v =>
    if k < a then Memory.cons k v ((a, b) :: rest)
    else if k = a then Memory.cons k v rest
    else (a, b) :: Memory.write rest k v

/-- Every address is at least `lo`, the addresses rise strictly, and no cell holds what an unlisted address reads as. -/
def Memory.wfFrom : Nat → Memory → Bool
  | _, [] => true
  | lo, (a, b) :: rest => decide (lo ≤ a) && !(b == Config.unwrittenByte) && Memory.wfFrom (a + 1) rest

/-- The canonical form: equal memories are equal lists. -/
def Memory.wf (m : Memory) : Bool := Memory.wfFrom 0 m

/-! ## Operand registers (10_state.md R20, R22) -/

/-- `U[r]`. -/
def State.getU (s : State) (r : Reg) : U128 := s.u[r]

/-- `U[r] <- v`. No register is hardwired (R20). -/
def State.setU (s : State) (r : Reg) (v : U128) : State := { s with u := s.u.set r v }

/-! ## Errors: entry, return, interrupt -/

/-- The code of STATUS.ERR (10_state.md R25). -/
def ErrCode.code : ErrCode → BitVec 3
  | .none => 0#3
  | .domain => 1#3
  | .invalidArg => 2#3
  | .illegal => 3#3

/-- `raise Error(code)` by the command in flight (60_exceptions.md R262): ERR takes the code and ERRCMD the command
word, which PENDING holds (10_state.md R30, log 7). Nothing else is written. -/
def State.raise (code : ErrCode) (s : State) : State := { s with err := code, errCmd := s.pending }

/-- The block's only trap return (60_exceptions.md R265): ERR becomes 0 and nothing else changes. -/
def State.clearError (s : State) : State := { s with err := .none }

/-- The interrupt output: `irq = (STATUS.ERR != 0) and (CTRL.IRQ_EN = 1)` (60_exceptions.md R264). -/
def State.irq (s : State) : Bool := s.err != .none && s.irqEn

/-- What every command obeys first (60_exceptions.md R263, R266): while an error is held it is discarded with no
effect. -/
def command (effect : State → State) (s : State) : Host.Outcome State Fault Refusal :=
  if s.err = .none then .next (effect s) else .next s

/-! ## The string buffer (10_state.md R28, R29) -/

/-- `StrBuf[i]`. -/
def State.strByte (s : State) (i : Nat) : Byte := Memory.read s.strBuf i

/-- The buffer that holds a text from index `i` on and 0x00 everywhere else: each character is written by
`StrBuf[i] <- byte` (00_scope.md R10) into an empty buffer, so nothing of the old contents survives (46_string.md R244). -/
def textBuf : Nat → List Byte → Memory
  | _, [] => []
  | i, c :: t => Memory.write (textBuf (i + 1) t) i c

/-- Stores a rendered text: all 256 bytes of STRBUF, and its length in STRLEN (46_string.md R240, R244). -/
def State.storeText (t : List Byte) (s : State) : State :=
  { s with strBuf := textBuf 0 t, strLen := BitVec.ofNat 8 t.length }

end Sys2Proof.Machine
end

