-- ==== Sys2Proof/Machine/Bus.lean ====
section
/-! DEFINITION. The host register window (20_memory.md): which accesses are legal (R52 to R54), what a read returns and
what a write does (R54 to R60), and what the host reads of the state at the end of a run
(70_reset_and_hazards.md R300). -/

namespace Sys2Proof.Machine

/-- A mapped location of the window (R54). -/
inductive Location where
  /-- `U[n].low`, offset 0x10*n. -/
  | low (n : Reg)
  /-- `U[n].high`, offset 0x10*n + 8. -/
  | high (n : Reg)
  /-- `CMD`, offset 0x080. -/
  | cmd
  /-- `STATUS`, offset 0x088. -/
  | status
  /-- `CTRL`, offset 0x090. -/
  | ctrl
  /-- `ERRCMD`, offset 0x098. -/
  | errCmd
  /-- `STRLEN`, offset 0x0A0. -/
  | strLen
  /-- `STRBUF` word `k`, offset 0x100 + 8*k. -/
  | strBuf (k : Fin 32)
  deriving DecidableEq, Repr

/-- The mapped row of an 8-byte-aligned offset; the rest of the window is unmapped (R54, R63). -/
def mappedRow (a : Nat) : Option Location :=
  if a < 0x080 then
    if a % 16 = 0 then some (.low (Fin.ofNat 8 (a / 16))) else some (.high (Fin.ofNat 8 (a / 16)))
  else if a = 0x080 then some .cmd
  else if a = 0x088 then some .status
  else if a = 0x090 then some .ctrl
  else if a = 0x098 then some .errCmd
  else if a = 0x0A0 then some .strLen
  else if 0x100 ≤ a ∧ a < 0x200 then some (.strBuf (Fin.ofNat 32 ((a - 0x100) / 8)))
  else none

/-- The location of a legal access: 8 bytes, 8-byte aligned, in a mapped row; `none` is BUS_ERROR (R52, R53). -/
def busLocation (addr : Offset) (size : Nat) : Option Location :=
  if size = Config.busSize ∧ addr.toNat % 8 = 0 then mappedRow addr.toNat else none

/-- STATUS as it reads: ERR in bits 2:0, the rest 0 (10_state.md R24; R57). -/
def statusImage (s : State) : Limb := s.err.code.setWidth 64

/-- CTRL as it reads: IRQ_EN in bit 0, the rest 0 (10_state.md R26; R57). -/
def ctrlImage (s : State) : Limb := (BitVec.ofBool s.irqEn).setWidth 64

/-- STRBUF word `k`: `data[8j+7:8j] = StrBuf[8k+j]`, character `8k` least significant (R58). -/
def strWord (s : State) (k : Fin 32) : Limb :=
  let byteAt (j : Nat) : Limb := (s.strByte (8 * k + j)).setWidth 64 <<< (8 * j)
  byteAt 7 ||| byteAt 6 ||| byteAt 5 ||| byteAt 4 ||| byteAt 3 ||| byteAt 2 ||| byteAt 1 ||| byteAt 0

/-- The data of a legal read (R54, R55, R57, R58). It has no side effect (R60). -/
def readLocation (s : State) : Location → Limb
  | .low n => lowLimb (s.getU n)
  | .high n => highLimb (s.getU n)
  | .cmd => 0#64
  | .status => statusImage s
  | .ctrl => ctrlImage s
  | .errCmd => s.errCmd.setWidth 64
  | .strLen => s.strLen.setWidth 64
  | .strBuf k => strWord s k

/-- A CMD write (R56): the word `wdata[31:0]` is accepted, or discarded while an error is held
(60_exceptions.md R263); acceptance sets BUSY and PENDING (70_reset_and_hazards.md R294). -/
def issueCommand (wdata : Limb) (s : State) : State :=
  if s.err = .none then { s with busy := true, pending := wdata.setWidth 32 } else s

/-- The effect of a legal write (R54 to R57, R59). -/
def writeLocation (s : State) (wdata : Limb) : Location → State
  | .low n => s.setU n (ofLimbs (highLimb (s.getU n)) wdata)
  | .high n => s.setU n (ofLimbs wdata (lowLimb (s.getU n)))
  | .cmd => issueCommand wdata s
  | .status => s.clearError
  | .ctrl => { s with irqEn := wdata.getLsbD 0 }
  | .errCmd => s
  | .strLen => s
  | .strBuf _ => s

/-- One bus access: its answer, and the state it leaves. An illegal access changes nothing (R52; 60_exceptions.md R261). -/
def busAccess (s : State) : BusAccess → BusAnswer × State
  | .read addr size =>
    match busLocation addr size with
    | some l => (.data (readLocation s l), s)
    | none => (.busError, s)
  | .write addr size wdata =>
    match busLocation addr size with
    | some l => (.okay, writeLocation s wdata l)
    | none => (.busError, s)

/-- Performs an access and puts its answer on the bus. The `OKAY` of a CMD write that accepts a command is not given yet:
the write is answered when the command completes, so that BUSY is 0 whenever the latest access has been answered
(70_reset_and_hazards.md R300). R56 and R294 give no time for that `OKAY`: the model's choice (log 18). -/
def performAccess (a : BusAccess) (s : State) : State :=
  let t := (busAccess s a).2
  { t with answer := if t.busy then none else some (busAccess s a).1 }

/-- The offsets whose reads are the observable end state of a run: the limbs of U0..U7, STATUS, CTRL, ERRCMD, STRLEN and
the words of STRBUF (70_reset_and_hazards.md R300). -/
def readableOffsets : List Offset :=
  (List.finRange 8).map (fun n : Reg => BitVec.ofNat 12 (0x10 * n)) ++
  (List.finRange 8).map (fun n : Reg => BitVec.ofNat 12 (0x10 * n + 8)) ++
  [0x088#12, 0x090#12, 0x098#12, 0x0A0#12] ++
  (List.finRange 32).map fun k : Fin 32 => BitVec.ofNat 12 (0x100 + 8 * k)

/-- The observable end state: what the bus answers to a read of each of these offsets (70_reset_and_hazards.md R300). -/
def endState (s : State) : List BusAnswer := readableOffsets.map fun a => (busAccess s (.read a Config.busSize)).1

end Sys2Proof.Machine
end

