-- ==== Sys2Proof/Machine/Operands.lean ====
section
/-! DEFINITION. The operand forms: how a command reads its sources and writes its destination (30_encoding.md R82, R83;
00_scope.md R11: every source is read before any destination is written), and the native integers of WIDEN and NARROW
(30_encoding.md R85). -/

namespace Sys2Proof.Machine

/-- Two-register commands: `U[rd] <- f U[ra]`. -/
def unary (f : U128 → U128) (rd ra : Reg) (s : State) : State := s.setU rd (f (s.getU ra))

/-- Three-register commands: `U[rd] <- f U[ra] U[rb]`. -/
def binary (f : U128 → U128 → U128) (rd ra rb : Reg) (s : State) : State :=
  s.setU rd (f (s.getU ra) (s.getU rb))

/-- The native integer of a width: bits `w-1:0` of the low limb (40_convert.md R104). -/
def nativeField (w : Width) (x : U128) : BitVec w.bits := (lowLimb x).setWidth w.bits

/-- `sext_64` of a native integer when `signed`, else `zext_64` (00_scope.md R10). -/
def extend64 (signed : Bool) (w : Width) (f : BitVec w.bits) : Limb :=
  if signed then f.signExtend 64 else f.setWidth 64

end Sys2Proof.Machine
end

