-- ==== Sys2Proof/Machine/Arith.lean ====
section
/-! DEFINITION. The adder, subtractor and multiplier (44_arith.md). Every result is computed exactly and reduced modulo
2^128; nothing overflows, saturates or sets state (R190). -/

namespace Sys2Proof.Machine

/-- ADD (R180). -/
def execAdd (rd ra rb : Reg) : State → Host.Outcome State Fault Refusal :=
  command (binary (fun x y => trunc128 (val x + val y)) rd ra rb)

/-- SUB (R182): the second source from the first. -/
def execSub (rd ra rb : Reg) : State → Host.Outcome State Fault Refusal :=
  command (binary (fun x y => truncInt128 ((val x : Int) - (val y : Int))) rd ra rb)

/-- NEG (R184): the complement plus one. -/
def execNeg (rd ra : Reg) : State → Host.Outcome State Fault Refusal :=
  command (unary (fun x => trunc128 ((2 ^ 128 - 1 - val x) + 1)) rd ra)

/-- INC (R185). -/
def execInc (rd ra : Reg) : State → Host.Outcome State Fault Refusal :=
  command (unary (fun x => trunc128 (val x + 1)) rd ra)

/-- DEC (R186). -/
def execDec (rd ra : Reg) : State → Host.Outcome State Fault Refusal :=
  command (unary (fun x => truncInt128 ((val x : Int) - 1)) rd ra)

/-- MUL (R187). -/
def execMul (rd ra rb : Reg) : State → Host.Outcome State Fault Refusal :=
  command (binary (fun x y => trunc128 (val x * val y)) rd ra rb)

end Sys2Proof.Machine
end

