-- ==== Sys2Proof/Machine/Bitwise.lean ====
section
/-! DEFINITION. The bitwise unit (41_bitwise.md): AND, OR, XOR, NOT, limb by limb. -/

namespace Sys2Proof.Machine

/-- Applies a 64-bit operation to the high limbs and to the low limbs. -/
def limbwise (f : Limb → Limb → Limb) (x y : U128) : U128 :=
  ofLimbs (f (highLimb x) (highLimb y)) (f (lowLimb x) (lowLimb y))

/-- AND (R120). -/
def execAnd (rd ra rb : Reg) : State → Host.Outcome State Fault Refusal :=
  command (binary (limbwise fun p q => p &&& q) rd ra rb)

/-- OR (R121). -/
def execOr (rd ra rb : Reg) : State → Host.Outcome State Fault Refusal :=
  command (binary (limbwise fun p q => p ||| q) rd ra rb)

/-- XOR (R122). -/
def execXor (rd ra rb : Reg) : State → Host.Outcome State Fault Refusal :=
  command (binary (limbwise fun p q => p ^^^ q) rd ra rb)

/-- NOT (R123). -/
def execNot (rd ra : Reg) : State → Host.Outcome State Fault Refusal :=
  command (unary (fun x => ofLimbs (~~~ highLimb x) (~~~ lowLimb x)) rd ra)

end Sys2Proof.Machine
end

