-- ==== Sys2Proof/Machine/Flags.lean ====
section
/-! DEFINITION. The block has no flags (10_state.md R32): a Boolean result is a value in a register. The comparisons of
43_compare.md R160 and the value of a Boolean (00_scope.md R10). -/

namespace Sys2Proof.Machine

/-- `b2u`: true is `U128(0, 1)`, false is `U128(0, 0)` (00_scope.md R10). -/
def b2u (c : Bool) : U128 := if c then ofLimbs 0 1 else ofLimbs 0 0

/-- Limb-wise equality (R160). -/
def eqU (x y : U128) : Bool := highLimb x == highLimb y && lowLimb x == lowLimb y

/-- Lexicographic unsigned comparison of the limbs (R160). -/
def ltU (x y : U128) : Bool :=
  (highLimb x).ult (highLimb y) || (highLimb x == highLimb y && (lowLimb x).ult (lowLimb y))

end Sys2Proof.Machine
end

