-- ==== Sys2Proof/Machine/Compare.lean ====
section
/-! DEFINITION. The comparison unit (43_compare.md): the six comparisons write 0 or 1 to their destination. -/

namespace Sys2Proof.Machine

/-- CEQ (R161). -/
def execCeq (rd ra rb : Reg) : State → Host.Outcome State Fault Refusal :=
  command (binary (fun x y => b2u (eqU x y)) rd ra rb)

/-- CNE (R162). -/
def execCne (rd ra rb : Reg) : State → Host.Outcome State Fault Refusal :=
  command (binary (fun x y => b2u (!eqU x y)) rd ra rb)

/-- CLT (R163). -/
def execClt (rd ra rb : Reg) : State → Host.Outcome State Fault Refusal :=
  command (binary (fun x y => b2u (ltU x y)) rd ra rb)

/-- CGT (R164). -/
def execCgt (rd ra rb : Reg) : State → Host.Outcome State Fault Refusal :=
  command (binary (fun x y => b2u (ltU y x)) rd ra rb)

/-- CLE (R165). -/
def execCle (rd ra rb : Reg) : State → Host.Outcome State Fault Refusal :=
  command (binary (fun x y => b2u (ltU x y || eqU x y)) rd ra rb)

/-- CGE (R166). -/
def execCge (rd ra rb : Reg) : State → Host.Outcome State Fault Refusal :=
  command (binary (fun x y => b2u (ltU y x || eqU x y)) rd ra rb)

end Sys2Proof.Machine
end

