-- ==== Sys2Proof/Machine/Convert.lean ====
section
/-! DEFINITION. Copy, move and conversion (40_convert.md): CPY, MVZ, WIDEN, NARROW. -/

namespace Sys2Proof.Machine

/-- CPY (R100). -/
def execCpy (rd ra : Reg) : State → Host.Outcome State Fault Refusal :=
  command (unary (fun x => x) rd ra)

/-- The move of R102: the source is drained, except by a move onto itself, which keeps the value (D18). -/
def moveEffect (rd ra : Reg) (s : State) : State :=
  if rd = ra then s.setU rd (s.getU ra) else (s.setU rd (s.getU ra)).setU ra (ofLimbs 0 0)

/-- MVZ (R102). -/
def execMvz (rd ra : Reg) : State → Host.Outcome State Fault Refusal := command (moveEffect rd ra)

/-- The value WIDEN writes: the extended native integer, the high limb always 0 (R104; 90_conflicts.md C2). -/
def widenValue (signed : Bool) (w : Width) (x : U128) : U128 :=
  ofLimbs 0 (extend64 signed w (nativeField w x))

/-- The effect of WIDEN. A signed bool is ILLEGAL (30_encoding.md R88 f); no word decodes to one (log 12). -/
def widenEffect (rd ra : Reg) (signed : Bool) (w : Width) (s : State) : State :=
  if signed && w == .bool then s.raise .illegal else unary (widenValue signed w) rd ra s

/-- WIDEN (R104). -/
def execWiden (rd ra : Reg) (signed : Bool) (w : Width) : State → Host.Outcome State Fault Refusal :=
  command (widenEffect rd ra signed w)

/-- The value NARROW writes: for bool, whether any bit of either limb is set; else the low `w` bits (R106). -/
def narrowValue (w : Width) (x : U128) : U128 :=
  match w with
  | .bool => b2u (highLimb x != 0 || lowLimb x != 0)
  | w => ofLimbs 0 (extend64 false w (nativeField w x))

/-- NARROW (R106). -/
def execNarrow (rd ra : Reg) (w : Width) : State → Host.Outcome State Fault Refusal :=
  command (unary (narrowValue w) rd ra)

end Sys2Proof.Machine
end

