-- ==== Sys2Proof/Machine/Divide.lean ====
section
/-! DEFINITION. The divider and modulo unit (45_divide.md): DIV, MOD, DIVMOD, BITLEN. A zero divisor raises
Error(DOMAIN) before anything else and writes no operand register (R213). -/

namespace Sys2Proof.Machine

/-- The quotient of R214. -/
def quotient (x y : U128) : U128 := trunc128 (val x / val y)

/-- The remainder of R214. -/
def remainder (x y : U128) : U128 := trunc128 (val x % val y)

/-- The operand check of the divider, then the effect (60_exceptions.md R266; R213). -/
def dividing (rb : Reg) (effect : State → State) (s : State) : State :=
  if val (s.getU rb) = 0 then s.raise .domain else effect s

/-- DIV (R210). -/
def execDiv (rd ra rb : Reg) : State → Host.Outcome State Fault Refusal :=
  command (dividing rb (binary quotient rd ra rb))

/-- MOD (R211). -/
def execMod (rd ra rb : Reg) : State → Host.Outcome State Fault Refusal :=
  command (dividing rb (binary remainder rd ra rb))

/-- Both results of one division; both sources are read before either write (R212). -/
def writeBoth (rq rr ra rb : Reg) (s : State) : State :=
  (s.setU rq (quotient (s.getU ra) (s.getU rb))).setU rr (remainder (s.getU ra) (s.getU rb))

/-- The effect of DIVMOD. Equal destinations are ILLEGAL (30_encoding.md R88 h); no word decodes to them (log 12). -/
def divmodEffect (rq rr ra rb : Reg) (s : State) : State :=
  if rq = rr then s.raise .illegal else dividing rb (writeBoth rq rr ra rb) s

/-- DIVMOD (R212). -/
def execDivmod (rq rr ra rb : Reg) : State → Host.Outcome State Fault Refusal :=
  command (divmodEffect rq rr ra rb)

/-- The number of significant bits: 0 for 0, else `floor(log2 v) + 1` (R216; 90_conflicts.md C1). -/
def bitLength (v : Nat) : Nat := if v = 0 then 0 else v.log2 + 1

/-- BITLEN (R216). -/
def execBitlen (rd ra : Reg) : State → Host.Outcome State Fault Refusal :=
  command (unary (fun x => trunc128 (bitLength (val x))) rd ra)

end Sys2Proof.Machine
end

