-- ==== Sys2Proof/Machine/Render.lean ====
section
/-! DEFINITION. The radix string renderer (46_string.md): STR. -/

namespace Sys2Proof.Machine

/-- The ASCII code of a digit value 0..15 (R241). -/
def digitChar (k : Nat) : Byte := if k < 10 then BitVec.ofNat 8 (0x30 + k) else BitVec.ofNat 8 (0x61 + (k - 10))

/-- The pad character `'0'` (R241). -/
def padChar : Byte := 0x30#8

/-- The loop of R242: the digit of `v % base` is prepended until the quotient is zero. `fuel` bounds the rounds. -/
def digitsLoop : Nat → Nat → Nat → List Byte → List Byte
  | 0, _, _, acc => acc
  | fuel + 1, v, base, acc =>
    if v = 0 then acc else digitsLoop fuel (v / base) base (digitChar (v % base) :: acc)

/-- The digits of a value, most significant first (R242); 128 rounds are enough for a 128-bit value. -/
def digits (v base : Nat) : List Byte :=
  if v = 0 then [digitChar 0] else digitsLoop Config.maxDigits v base []

/-- Left padding with `'0'` to a minimum length, never truncating (R243). -/
def padTo (len : Nat) (t : List Byte) : List Byte := List.replicate (len - t.length) padChar ++ t

/-- Whether BASE is outside 2..16 (R245). -/
def badBase (base : BitVec 5) : Bool := decide (base.toNat < Config.minBase) || decide (Config.maxBase < base.toNat)

/-- The effect of STR (R240): the base check comes before the value is read (R245); no operand register is written. -/
def strEffect (ra : Reg) (base : BitVec 5) (minlen : BitVec 8) (s : State) : State :=
  if badBase base then s.raise .invalidArg
  else s.storeText (padTo minlen.toNat (digits (val (s.getU ra)) base.toNat))

/-- STR (R240). -/
def execStr (ra : Reg) (base : BitVec 5) (minlen : BitVec 8) : State → Host.Outcome State Fault Refusal :=
  command (strEffect ra base minlen)

end Sys2Proof.Machine
end

