-- ==== Sys2Proof/Machine/Shift.lean ====
section
/-! DEFINITION. The barrel shifter (42_shift.md): SHL and SHR. The amount is the full 128-bit value of `Ub`; it is
never reduced, and 128 or more shifts everything out (R140; 90_conflicts.md C3). -/

namespace Sys2Proof.Machine

/-- The value SHL writes (R141). -/
def shlValue (x amount : U128) : U128 :=
  if 128 ≤ val amount then ofLimbs 0 0 else trunc128 (val x * 2 ^ val amount)

/-- The value SHR writes (R142). -/
def shrValue (x amount : U128) : U128 :=
  if 128 ≤ val amount then ofLimbs 0 0 else trunc128 (val x / 2 ^ val amount)

/-- SHL (R141). -/
def execShl (rd ra rb : Reg) : State → Host.Outcome State Fault Refusal :=
  command (binary shlValue rd ra rb)

/-- SHR (R142). -/
def execShr (rd ra rb : Reg) : State → Host.Outcome State Fault Refusal :=
  command (binary shrValue rd ra rb)

end Sys2Proof.Machine
end

