-- ==== Sys2Proof/Machine/Dispatch.lean ====
section
/-! DEFINITION. The dispatch: the completion of a decoded command (70_reset_and_hazards.md R294), one arm each. -/

namespace Sys2Proof.Machine

/-- What a command does when it completes. -/
def exec (i : Instr) (s : State) : Host.Outcome State Fault Refusal :=
  match i with
  | .cpy rd ra => Sys2Proof.Machine.execCpy rd ra s
  | .mvz rd ra => Sys2Proof.Machine.execMvz rd ra s
  | .widen rd ra signed w => Sys2Proof.Machine.execWiden rd ra signed w s
  | .narrow rd ra w => Sys2Proof.Machine.execNarrow rd ra w s
  | .and rd ra rb => Sys2Proof.Machine.execAnd rd ra rb s
  | .or rd ra rb => Sys2Proof.Machine.execOr rd ra rb s
  | .xor rd ra rb => Sys2Proof.Machine.execXor rd ra rb s
  | .not rd ra => Sys2Proof.Machine.execNot rd ra s
  | .shl rd ra rb => Sys2Proof.Machine.execShl rd ra rb s
  | .shr rd ra rb => Sys2Proof.Machine.execShr rd ra rb s
  | .ceq rd ra rb => Sys2Proof.Machine.execCeq rd ra rb s
  | .cne rd ra rb => Sys2Proof.Machine.execCne rd ra rb s
  | .clt rd ra rb => Sys2Proof.Machine.execClt rd ra rb s
  | .cgt rd ra rb => Sys2Proof.Machine.execCgt rd ra rb s
  | .cle rd ra rb => Sys2Proof.Machine.execCle rd ra rb s
  | .cge rd ra rb => Sys2Proof.Machine.execCge rd ra rb s
  | .add rd ra rb => Sys2Proof.Machine.execAdd rd ra rb s
  | .sub rd ra rb => Sys2Proof.Machine.execSub rd ra rb s
  | .neg rd ra => Sys2Proof.Machine.execNeg rd ra s
  | .inc rd ra => Sys2Proof.Machine.execInc rd ra s
  | .dec rd ra => Sys2Proof.Machine.execDec rd ra s
  | .mul rd ra rb => Sys2Proof.Machine.execMul rd ra rb s
  | .div rd ra rb => Sys2Proof.Machine.execDiv rd ra rb s
  | .mod rd ra rb => Sys2Proof.Machine.execMod rd ra rb s
  | .divmod rq rr ra rb => Sys2Proof.Machine.execDivmod rq rr ra rb s
  | .bitlen rd ra => Sys2Proof.Machine.execBitlen rd ra s
  | .str ra base minlen => Sys2Proof.Machine.execStr ra base minlen s

end Sys2Proof.Machine
end

