-- ==== Sys2Proof/Machine/Sequencer.lean ====
section
/-! DEFINITION. How the block moves (70_reset_and_hazards.md): reset (R290, R291), the completion of an accepted command
(R294), the interlock (R296), the order of the host's accesses (20_memory.md R64), and the end of a run (R300). -/

namespace Sys2Proof.Machine

/-- What the completion of a command word applies (60_exceptions.md R266, R294): discarded while an error is held;
Error(ILLEGAL) for a word that is no command; else the command's effect. -/
def completeWord (c : CmdWord) (s : State) : Host.Outcome State Fault Refusal :=
  match decode c with
  | .ok i => exec i s
  | .error _ => command (State.raise .illegal) s

/-- The completion of the command in flight: its effects, then `BUSY <- 0` (R294). PENDING keeps its word (log 6). The
CMD write that issued the command is answered `OKAY` now (20_memory.md R56; the time is the model's choice, log 18). -/
def complete (s : State) : Host.Outcome State Fault Refusal :=
  match completeWord s.pending s with
  | .next t => .next { t with busy := false, answer := some .okay }
  | .fault f => .fault f
  | .refused r => .refused r

/-- The host drives `rst` to a level. While it is asserted, and when it is released, every piece of state takes its
reset value, and a command in flight is abandoned (R290, R291); driving a released `rst` low changes nothing (log 4). -/
def driveReset (level : Bool) (s : State) : State :=
  if level || s.rst then { State.reset with rst := level, host := s.host } else s

/-- One move of the block and its host. A change of `rst` comes first: the host may make it at any time (R291,
20_memory.md R68). Then a command in flight completes, and any access of the host waits for it (R296). Then the host's
next access is performed; one made during reset is not defined (R291). With nothing to do the block holds its state
(60_exceptions.md R274). -/
def advance (s : State) : Host.Outcome State Fault Refusal :=
  match s.host with
  | .rst level :: rest => .next (driveReset level { s with host := rest })
  | .access a :: rest =>
    if s.rst then .fault .accessDuringReset
    else if s.busy then complete s
    else .next (performAccess a { s with host := rest })
  | .idle :: rest => if s.busy then complete s else .next { s with host := rest }
  | [] => if s.busy then complete s else .next s

/-- Whether a move of the host is a bus access. -/
def HostEvent.isAccess : HostEvent → Bool
  | .access _ => true
  | .rst _ => false
  | .idle => false

/-- The host's program has ended: no access is left to make, and the last one has been answered, so that the block is
idle (R300; by log 18 the answer of a CMD write comes with the completion of its command). R300 speaks only of a last
access that has been answered. The model's choice (log 19): a run whose last CMD write is cut off by `rst`, and so is
never answered, has ended too, and so has a run with no access. -/
def runEnded (s : State) : Bool := !s.host.any HostEvent.isAccess && !s.busy

/-- The state with a command word accepted and about to complete: `rst` released, BUSY set, PENDING holding the word,
and the host waiting first, so that no change of `rst` comes before the completion (log 11). -/
def placeWord (c : CmdWord) (s : State) : State :=
  { s with rst := false, busy := true, pending := c, host := .idle :: s.host }

end Sys2Proof.Machine
end

