-- ==== Sys2Proof/Machine/Step.lean ====
section
/-! DEFINITION. One step of the machine, and the placing of a command word where the next step runs it. -/

namespace Sys2Proof.Machine

/-- One step: the host's next move on `rst` or the bus, or the completion of the command in flight. -/
def step (s : State) : Host.Outcome State Fault Refusal := advance s

/-- The state with the command word of an opcode-table row in flight, so that the next step runs it (log 11). -/
def State.withFetchWord (s : State) (nbits w : Nat) : State := placeWord (tableWord nbits w) s

end Sys2Proof.Machine
end

