-- ==== Sys2Proof/Machine/Datapath.lean ====
section
/-! DEFINITION. The methods the source gives for its units, limb by limb and bit by bit (42_shift.md R143, R144;
44_arith.md R181, R183, R188; 45_divide.md R215, R216). A device may compute a result this way or any other (log 14):
the meanings compute the values, and these are stated to give the same. -/

namespace Sys2Proof.Machine

/-- The limb cases of SHL (R143). -/
def shlByLimbs (x amount : U128) : U128 :=
  let s := val amount
  let hi := highLimb x
  let lo := lowLimb x
  if s = 0 then ofLimbs hi lo
  else if s < 64 then ofLimbs (hi <<< s ||| lo >>> (64 - s)) (lo <<< s)
  else if s = 64 then ofLimbs lo 0
  else if s < 128 then ofLimbs (lo <<< (s - 64)) 0
  else ofLimbs 0 0

/-- The mirrored limb cases of SHR (R144). -/
def shrByLimbs (x amount : U128) : U128 :=
  let s := val amount
  let hi := highLimb x
  let lo := lowLimb x
  if s = 0 then ofLimbs hi lo
  else if s < 64 then ofLimbs (hi >>> s) (lo >>> s ||| hi <<< (64 - s))
  else if s = 64 then ofLimbs 0 hi
  else if s < 128 then ofLimbs 0 (hi >>> (s - 64))
  else ofLimbs 0 0

/-- The adder's carry propagation (R181). -/
def addByLimbs (x y : U128) : U128 :=
  let low := lowLimb x + lowLimb y
  let carry : Limb := if low.ult (lowLimb x) then 1 else 0
  ofLimbs (highLimb x + highLimb y + carry) low

/-- The subtractor's borrow propagation (R183). -/
def subByLimbs (x y : U128) : U128 :=
  let low := lowLimb x - lowLimb y
  let borrow : Limb := if (lowLimb x).ult low then 1 else 0
  ofLimbs (highLimb x - highLimb y - borrow) low

/-- The 32-bit digit `i` of a value, as a number (R188). -/
def mulDigit (x : U128) (i : Nat) : Nat := (x.extractLsb' (32 * i) 32).toNat

/-- The partial product `P(i,j)` at its place (R188). -/
def partialProduct (x y : U128) (p : Nat × Nat) : Nat := mulDigit x p.1 * mulDigit y p.2 * 2 ^ (32 * (p.1 + p.2))

/-- The sixteen digit positions `(i, j)` of R188. -/
def allDigitPairs : List (Nat × Nat) := (List.range 4).flatMap fun i => (List.range 4).map fun j => (i, j)

/-- Schoolbook multiplication from the partial products at some positions (R188). -/
def schoolbookMul (pairs : List (Nat × Nat)) (x y : U128) : U128 := trunc128 (pairs.map (partialProduct x y)).sum

/-- Step 4 of the long division: `x` bit positions are left, `q` and `r` are the running quotient and remainder
(R215). -/
def longDivideLoop (n m : U128) : Nat → U128 → U128 → U128 × U128
  | 0, q, r => (q, r)
  | x + 1, q, r =>
    let q := q <<< 1
    let r := if n.getLsbD x then r <<< 1 ||| 1 else r <<< 1
    if m ≤ r then longDivideLoop n m x (q + 1) (r - m) else longDivideLoop n m x q r

/-- The long division of the source (R215), for a divisor that is not zero. -/
def longDivide (n m : U128) : U128 × U128 :=
  if m = 1 then (n, 0)
  else if n = m then (1, 0)
  else if n = 0 ∨ n < m then (0, n)
  else longDivideLoop n m (bitLength (val n)) 0 0

/-- The bit length limb by limb, from the high limb downward (R216). -/
def bitLengthByLimbs (x : U128) : Nat :=
  if highLimb x ≠ 0 then 64 + bitLength (highLimb x).toNat else bitLength (lowLimb x).toNat

end Sys2Proof.Machine
end

