-- ==== Sys2Proof/Safety.lean ====
section
/-! DEFINITION. The terms the claims use: what a command may change, when a step completes it, which words are reserved,
what a text denotes, and the invariant of the block. -/

namespace Sys2Proof.Machine

/-! ## Steps -/

/-- The command completes in a next state of which `P` holds. -/
def CompletesWith (i : Instr) (s : State) (P : State → Prop) : Prop := ∃ t, exec i s = .next t ∧ P t

/-- A command is in flight and the next step completes it: the host's next move does not change `rst`
(70_reset_and_hazards.md R291, R294). -/
def InFlight (s : State) : Prop := s.busy = true ∧ s.rst = false ∧ ∀ level, s.host.head? ≠ some (.rst level)

/-- The host's next move is an access, which the block performs in the next step: no reset, nothing in flight
(20_memory.md R64, 70_reset_and_hazards.md R296). -/
def Accessing (a : BusAccess) (rest : List HostEvent) (s : State) : Prop :=
  s.host = .access a :: rest ∧ s.rst = false ∧ s.busy = false

/-! ## Frames -/

/-- Everything but the operand registers named, read through the operations that read it, is as before. -/
structure ChangesOnly (dests : List Reg) (s t : State) : Prop where
  regs : ∀ r, r ∉ dests → t.getU r = s.getU r
  err : t.err = s.err
  irqEn : t.irqEn = s.irqEn
  errCmd : t.errCmd = s.errCmd
  strLen : t.strLen = s.strLen
  strBytes : ∀ i, t.strByte i = s.strByte i
  busy : t.busy = s.busy
  pending : t.pending = s.pending
  rst : t.rst = s.rst
  host : t.host = s.host
  answer : t.answer = s.answer

/-- Everything but STRBUF and STRLEN is as before: the frame of STR (46_string.md R240). -/
structure ChangesOnlyText (s t : State) : Prop where
  regs : ∀ r, t.getU r = s.getU r
  err : t.err = s.err
  irqEn : t.irqEn = s.irqEn
  errCmd : t.errCmd = s.errCmd
  busy : t.busy = s.busy
  pending : t.pending = s.pending
  rst : t.rst = s.rst
  host : t.host = s.host
  answer : t.answer = s.answer

/-- The operand registers a command may write (10_state.md R22). -/
def dests : Instr → List Reg
  | .mvz rd ra => [rd, ra]
  | .divmod rq rr _ _ => [rq, rr]
  | .str _ _ _ => []
  | .cpy rd _ | .widen rd _ _ _ | .narrow rd _ _ | .and rd _ _ | .or rd _ _ | .xor rd _ _ | .not rd _
  | .shl rd _ _ | .shr rd _ _ | .ceq rd _ _ | .cne rd _ _ | .clt rd _ _ | .cgt rd _ _ | .cle rd _ _ | .cge rd _ _
  | .add rd _ _ | .sub rd _ _ | .neg rd _ | .inc rd _ | .dec rd _ | .mul rd _ _ | .div rd _ _ | .mod rd _ _
  | .bitlen rd _ => [rd]

/-- The operand registers a command reads. -/
def sources : Instr → List Reg
  | .cpy _ ra | .mvz _ ra | .widen _ ra _ _ | .narrow _ ra _ | .not _ ra | .neg _ ra | .inc _ ra | .dec _ ra
  | .bitlen _ ra | .str ra _ _ => [ra]
  | .and _ ra rb | .or _ ra rb | .xor _ ra rb | .shl _ ra rb | .shr _ ra rb | .ceq _ ra rb | .cne _ ra rb
  | .clt _ ra rb | .cgt _ ra rb | .cle _ ra rb | .cge _ ra rb | .add _ ra rb | .sub _ ra rb | .mul _ ra rb
  | .div _ ra rb | .mod _ ra rb | .divmod _ _ ra rb => [ra, rb]

/-- The commands that render text. -/
def rendersText : Instr → Bool
  | .str _ _ _ => true
  | .cpy _ _ | .mvz _ _ | .widen _ _ _ _ | .narrow _ _ _ | .and _ _ _ | .or _ _ _ | .xor _ _ _ | .not _ _
  | .shl _ _ _ | .shr _ _ _ | .ceq _ _ _ | .cne _ _ _ | .clt _ _ _ | .cgt _ _ _ | .cle _ _ _ | .cge _ _ _
  | .add _ _ _ | .sub _ _ _ | .neg _ _ | .inc _ _ | .dec _ _ | .mul _ _ _ | .div _ _ _ | .mod _ _ _
  | .divmod _ _ _ _ | .bitlen _ _ => false

/-- The error a well-formed command raises on its operands; NONE when it succeeds (60_exceptions.md R260). -/
def operandError (i : Instr) (s : State) : ErrCode :=
  match i with
  | .div _ _ rb | .mod _ _ rb | .divmod _ _ _ rb => if val (s.getU rb) = 0 then .domain else .none
  | .str _ base _ => if base.toNat < 2 ∨ 16 < base.toNat then .invalidArg else .none
  | .cpy _ _ | .mvz _ _ | .widen _ _ _ _ | .narrow _ _ _ | .and _ _ _ | .or _ _ _ | .xor _ _ _ | .not _ _
  | .shl _ _ _ | .shr _ _ _ | .ceq _ _ _ | .cne _ _ _ | .clt _ _ _ | .cgt _ _ _ | .cle _ _ _ | .cge _ _ _
  | .add _ _ _ | .sub _ _ _ | .neg _ _ | .inc _ _ | .dec _ _ | .mul _ _ _ | .bitlen _ _ => .none

/-! ## Encoding and bus -/

/-- A must-be-zero field of the word's format is not zero (30_encoding.md R82, R88 c and g). -/
def BreaksMustBeZero (c : CmdWord) : Prop :=
  let op := (opField c).toNat
  (op ∈ [0x01, 0x02, 0x08, 0x0E, 0x0F, 0x10, 0x15] ∧ (rbField c ≠ 0 ∨ rcField c ≠ 0 ∨ immField c ≠ 0)) ∨
  (op ∈ [0x05, 0x06, 0x07, 0x09, 0x0A, 0x0C, 0x0D, 0x11, 0x12, 0x13] ∧ (rcField c ≠ 0 ∨ immField c ≠ 0)) ∨
  (op = 0x0B ∧ (rcField c ≠ 0 ∨ c.extractLsb' 3 12 ≠ 0)) ∨
  (op ∈ [0x03, 0x04] ∧ (rbField c ≠ 0 ∨ rcField c ≠ 0 ∨ c.extractLsb' 4 11 ≠ 0)) ∨
  (op = 0x04 ∧ signField c ≠ 0) ∨
  (op = 0x14 ∧ immField c ≠ 0) ∨
  (op = 0x16 ∧ (rdField c ≠ 0 ∨ rbField c ≠ 0 ∨ rcField c ≠ 0 ∨ c.extractLsb' 13 2 ≠ 0))

/-- The words of 30_encoding.md R88, case by case. -/
def ReservedWord (c : CmdWord) : Prop :=
  let op := (opField c).toNat
  op = 0x00 ∨ 0x17 ≤ op ∨ BreaksMustBeZero c ∨
  (op = 0x0B ∧ 6 ≤ (condField c).toNat) ∨
  (op ∈ [0x03, 0x04] ∧ 5 ≤ (widthField c).toNat) ∨
  (op = 0x03 ∧ widthField c = 0 ∧ signField c = 1) ∨
  (op = 0x14 ∧ rdField c = rcField c)

/-- A legal access: 8 bytes, 8-byte aligned, in a mapped row (20_memory.md R52 to R54, R63). -/
def LegalAccess (addr : Offset) (size : Nat) : Prop :=
  size = 8 ∧ addr.toNat % 8 = 0 ∧ (addr.toNat < 0x0A8 ∨ (0x100 ≤ addr.toNat ∧ addr.toNat < 0x200))

/-! ## Text (46_string.md R241, R242) -/

/-- The value of a character of the alphabet "0123456789abcdef". -/
def digitValue (c : Byte) : Nat := if c.toNat < 0x61 then c.toNat - 0x30 else c.toNat - 0x61 + 10

/-- A character of the alphabet whose digit value is below the base. -/
def IsDigitOf (base : Nat) (c : Byte) : Prop :=
  ((0x30 ≤ c.toNat ∧ c.toNat ≤ 0x39) ∨ (0x61 ≤ c.toNat ∧ c.toNat ≤ 0x66)) ∧ digitValue c < base

/-- The text in STRBUF, most significant character first (10_state.md R29). -/
def State.text (s : State) : List Byte := (List.range s.strLen.toNat).map s.strByte

/-- The number a text denotes in a base. -/
def textValue (base : Nat) (t : List Byte) : Nat := t.foldl (fun n c => n * base + digitValue c) 0

/-! ## The invariant of the block -/

/-- ERRCMD holds the word that set the current error (10_state.md R27, 60_exceptions.md R260, R267). -/
def ErrorExplained (s : State) : Prop :=
  match s.err with
  | .none => True
  | .illegal => ∃ why, decode s.errCmd = .error why
  | .domain => ∃ i, decode s.errCmd = .ok i ∧
      ((∃ rd ra rb, i = .div rd ra rb ∨ i = .mod rd ra rb) ∨ ∃ rq rr ra rb, i = .divmod rq rr ra rb)
  | .invalidArg => ∃ ra base minlen, decode s.errCmd = .ok (.str ra base minlen) ∧
      (base.toNat < 2 ∨ 16 < base.toNat)

/-- What holds of the block at reset and after every step. -/
structure State.Inv (s : State) : Prop where
  /-- STRBUF keeps its canonical form (log 9). -/
  bufCanonical : Memory.wf s.strBuf = true
  /-- STRBUF has 256 bytes (10_state.md R29). -/
  bufInside : ∀ cell ∈ s.strBuf, cell.1 < Config.strBufSize
  /-- The bytes below LEN are digits of the largest base (R29; 46_string.md R241). -/
  bufText : ∀ i, i < s.strLen.toNat → IsDigitOf 16 (s.strByte i)
  /-- The bytes from LEN on are 0x00 (R29). -/
  bufZero : ∀ i, s.strLen.toNat ≤ i → s.strByte i = 0#8
  /-- A command in flight was accepted with no error held (20_memory.md R56, 60_exceptions.md R263). -/
  busyClear : s.busy = true → s.err = .none
  /-- While a command is in flight the CMD write that issued it has no answer: once the latest access has been answered
  BUSY is 0 (70_reset_and_hazards.md R300; log 18). -/
  busyUnanswered : s.busy = true → s.answer = none
  /-- An error held is explained by ERRCMD. -/
  errExplained : ErrorExplained s
  /-- While `rst` is asserted every piece of state has its reset value (70_reset_and_hazards.md R290). -/
  heldReset : s.rst = true → s = { State.reset with rst := true, host := s.host }

end Sys2Proof.Machine
end

