-- ==== Sys2Proof/Certificates/Slice0/Obligations.lean ====
section
/-! DEFINITION. The statements for the provers. Every statement about a command's result is its completion too: it
says that `exec` answers a next state, in every state with no error held, and what that state holds. -/

open Sys2Proof Sys2Proof.Machine

/-! ## Command words (30_encoding.md) -/

/-- Words written out in the spec, a few of every format, and what they are (95_test_vectors.md section 2.1; the
examples of R100, R104, R106, R120, R166, R180, R212, R240). -/
def Obligations.DecodesWordsOfTheSpec : Prop :=
  decode 0x08200000#32 = .ok (.cpy 0 1) ∧ decode 0x18200009#32 = .ok (.widen 0 1 true .w8) ∧
  decode 0x1820000C#32 = .ok (.widen 0 1 true .w64) ∧ decode 0x20200004#32 = .ok (.narrow 0 1 .w64) ∧
  decode 0x2A040000#32 = .ok (.and 2 0 1) ∧ decode 0x58000005#32 = .ok (.cge 0 0 0) ∧
  decode 0x62040000#32 = .ok (.add 2 0 1) ∧ decode 0xA2058000#32 = .ok (.divmod 2 3 0 1) ∧
  decode 0xB0E010FF#32 = .ok (.str 7 16 255) ∧ decode 0xB0001F00#32 = .ok (.str 0 31 0) ∧
  decode 0x00000000#32 = .error .reservedOpcode ∧ decode 0x62040001#32 = .error .mustBeZero ∧
  decode 0x58000006#32 = .error .reservedCondition ∧ decode 0x18200005#32 = .error .reservedWidth ∧
  decode 0x18200008#32 = .error .signedBool ∧ decode 0xA2050000#32 = .error .sameDestination

/-- Decoding the word of a well-formed command gives it back, with every operand (R82, R86, R90). -/
def Obligations.DecodeOfEncode : Prop := ∀ i : Instr, i.wellFormed = true → decode (encode i) = .ok i

/-- A word that decodes is the word of exactly the command it decodes to, which is well formed: no bit of a legal word
is ignored (R82, R86, R89). -/
def Obligations.DecodedWordReencodes : Prop :=
  ∀ (c : CmdWord) (i : Instr), decode c = .ok i → i.wellFormed = true ∧ encode i = c

/-- The decoder, written field by field, reads every word as the opcode map does by mask, match and extra constraint,
and at most one row of the map accepts a word (R86, R87). -/
def Obligations.DecodeFollowsOpcodeMap : Prop :=
  ∀ c : CmdWord, (decode c).toOption = decodeByRows c ∧ (opcodeMap.filter fun r => r.accepts c).length ≤ 1

/-- The words that decode to no command are exactly those of R88, case by case; every other word is a command (R89). -/
def Obligations.IllegalWordsAreTheReservedOnes : Prop :=
  ∀ c : CmdWord, (∃ why, decode c = .error why) ↔ ReservedWord c

/-! ## Steps (60_exceptions.md, 70_reset_and_hazards.md) -/

/-- When the command in flight decodes, `exec` of it answers a next state, and the step answers that state with BUSY 0
and the CMD write answered (R294). The model's choice: one step from acceptance to completion (log 3), PENDING kept
after it (log 6), the OKAY given with the completion (log 18). -/
def Obligations.StepRunsDecodedCommand : Prop :=
  ∀ (s : State) (i : Instr), InFlight s → decode s.pending = .ok i →
    ∃ t, exec i s = .next t ∧ step s = .next { t with busy := false, answer := some .okay }

/-- When the word in flight is no command, the step sets ERR to ILLEGAL and ERRCMD to the word, and writes nothing
else; BUSY is 0 and the CMD write is answered (R88, R262, R294). The model's choice: the word is read from PENDING
(log 7), which is kept (log 6), and the OKAY is given with the completion (log 18). -/
def Obligations.IllegalWordRaisesOnStep : Prop :=
  ∀ (s : State) (why : IllegalReason), InFlight s → s.err = .none → decode s.pending = .error why →
    step s = .next { s with err := .illegal, errCmd := s.pending, busy := false, answer := some .okay }

/-- A CMD write accepts the low 32 bits as the command word when no error is held; otherwise it discards them and
answers OKAY. The OKAY of an accepted word is given by the step that completes it, whatever the word. A CMD read returns
0 and has no effect (R56). That the OKAY comes with the completion is the model's choice (log 18), as is the field that
holds it (log 10). -/
def Obligations.CommandWriteAcceptsOrDiscards : Prop :=
  (∀ (s : State) (rest : List HostEvent) (wdata : Limb), Accessing (.write 0x080#12 8 wdata) rest s →
    (s.err = .none → step s = .next
      { s with busy := true, pending := wdata.extractLsb' 0 32, host := rest, answer := none }) ∧
    (s.err ≠ .none → step s = .next { s with host := rest, answer := some .okay })) ∧
  (∀ s : State, InFlight s → ∃ t, step s = .next t ∧ t.busy = false ∧ t.answer = some .okay) ∧
  (∀ (s : State) (rest : List HostEvent), Accessing (.read 0x080#12 8) rest s →
    step s = .next { s with host := rest, answer := some (.data 0#64) })

/-- While an error is held every command and every word is discarded with no effect. R263 discards at the CMD write
(CommandWriteAcceptsOrDiscards); this second gate, in `exec` and at completion, is the model's (log 3) and agrees with
R266. The step keeps PENDING (log 6) and answers the CMD write (log 18), by the model's choice. -/
def Obligations.HeldErrorDiscardsCommands : Prop :=
  ∀ s : State, s.err ≠ .none →
    (∀ i : Instr, exec i s = .next s) ∧ (InFlight s → step s = .next { s with busy := false, answer := some .okay })

/-- While a command is in flight an access of the host is not answered: the step completes the command as if the host
asked nothing, the access stays, and the step after performs it on the completed state (R296). The model's choice: the
two steps (log 3), and that the completion answers the CMD write before (log 18). -/
def Obligations.InterlockHoldsAccess : Prop :=
  ∀ (s : State) (a : BusAccess) (rest : List HostEvent), s.busy = true → s.rst = false →
    s.host = .access a :: rest →
    ∃ t, step s = .next t ∧ t.busy = false ∧ t.host = s.host ∧ t.answer = some .okay ∧
      step { s with host := [] } = .next { t with host := [] } ∧
      step t = .next (performAccess a { t with host := rest })

/-- Asserting `rst`, and releasing it, gives every piece of state its reset value at once, and a command in flight is
abandoned (R290, R291). The model's choice: PENDING is 0 (log 5, where R35 leaves it unspecified), nothing is answered
(log 10), and the level moves between steps, before a completion (log 4 and 17). -/
def Obligations.ResetTakesEffectAtOnce : Prop :=
  ∀ (s : State) (level : Bool) (rest : List HostEvent), s.host = .rst level :: rest →
    (level = true ∨ s.rst = true) → step s = .next { State.reset with rst := level, host := rest }

/-- What reset leaves in every register and buffer, and on the interrupt output (10_state.md R35); PENDING is
unspecified there and not stated here. -/
def Obligations.ResetValues : Prop :=
  (∀ r : Reg, highLimb (State.reset.getU r) = 0#64 ∧ lowLimb (State.reset.getU r) = 0#64) ∧
  State.reset.err = .none ∧ statusImage State.reset = 0#64 ∧
  State.reset.irqEn = false ∧ ctrlImage State.reset = 0#64 ∧
  State.reset.errCmd = 0#32 ∧ State.reset.strLen = 0#8 ∧ (∀ i, i < 256 → State.reset.strByte i = 0x00#8) ∧
  State.reset.busy = false ∧ State.reset.irq = false

/-- The machine stops in one case only, an access made while `rst` is asserted (R291; the model's stop, log 4), and it
refuses nothing (R89). -/
def Obligations.OnlyAccessDuringResetStops : Prop :=
  ∀ s : State, ((∃ f, step s = .fault f) ↔ s.rst = true ∧ ∃ a rest, s.host = .access a :: rest) ∧
    ∀ r, step s ≠ .refused r

/-- Between commands the block is idle and holds all its state (60_exceptions.md R274). -/
def Obligations.IdleBlockHoldsItsState : Prop :=
  ∀ s : State, s.busy = false →
    (s.host = [] → step s = .next s) ∧ (∀ rest, s.host = .idle :: rest → step s = .next { s with host := rest })

/-! ## The register window (20_memory.md) -/

/-- A limb read returns the limb; a limb write sets that limb, keeps the other limb, and changes nothing else (R55). -/
def Obligations.LimbAccesses : Prop :=
  ∀ (s : State) (n : Reg) (wdata : Limb),
    busAccess s (.read (BitVec.ofNat 12 (0x10 * n)) 8) = (.data (lowLimb (s.getU n)), s) ∧
    busAccess s (.read (BitVec.ofNat 12 (0x10 * n + 8)) 8) = (.data (highLimb (s.getU n)), s) ∧
    (∃ t, busAccess s (.write (BitVec.ofNat 12 (0x10 * n)) 8 wdata) = (.okay, t) ∧
      lowLimb (t.getU n) = wdata ∧ highLimb (t.getU n) = highLimb (s.getU n) ∧ ChangesOnly [n] s t) ∧
    (∃ t, busAccess s (.write (BitVec.ofNat 12 (0x10 * n + 8)) 8 wdata) = (.okay, t) ∧
      highLimb (t.getU n) = wdata ∧ lowLimb (t.getU n) = lowLimb (s.getU n) ∧ ChangesOnly [n] s t)

/-- STATUS, CTRL, ERRCMD and STRLEN read as their fields with every reserved bit 0; a CTRL write stores bit 0 only; a
STATUS write sets ERR to 0 whatever the data (R57, with the codes of 10_state.md R25). -/
def Obligations.RegisterImages : Prop :=
  ∀ (s : State) (wdata : Limb),
    (∃ d, busAccess s (.read 0x088#12 8) = (.data d, s) ∧
      (s.err = .none → d.toNat = 0) ∧ (s.err = .domain → d.toNat = 1) ∧
      (s.err = .invalidArg → d.toNat = 2) ∧ (s.err = .illegal → d.toNat = 3)) ∧
    (∃ d, busAccess s (.read 0x090#12 8) = (.data d, s) ∧ d.toNat = if s.irqEn then 1 else 0) ∧
    (∃ d, busAccess s (.read 0x098#12 8) = (.data d, s) ∧ d.toNat = s.errCmd.toNat) ∧
    (∃ d, busAccess s (.read 0x0A0#12 8) = (.data d, s) ∧ d.toNat = s.strLen.toNat) ∧
    busAccess s (.write 0x090#12 8 wdata) = (.okay, { s with irqEn := wdata.getLsbD 0 }) ∧
    busAccess s (.write 0x088#12 8 wdata) = (.okay, { s with err := .none })

/-- Byte `j` of STRBUF word `k` is `StrBuf[8k+j]` (R58). -/
def Obligations.StrbufWordsAreLittleEndian : Prop :=
  ∀ (s : State) (k : Fin 32), ∃ d, busAccess s (.read (BitVec.ofNat 12 (0x100 + 8 * k)) 8) = (.data d, s) ∧
    ∀ j, j < 8 → d.extractLsb' (8 * j) 8 = s.strByte (8 * k + j)

/-- A write to ERRCMD, STRLEN or any STRBUF word answers OKAY and changes nothing (R59). -/
def Obligations.ReadOnlyWritesAreIgnored : Prop :=
  ∀ (s : State) (wdata : Limb),
    busAccess s (.write 0x098#12 8 wdata) = (.okay, s) ∧ busAccess s (.write 0x0A0#12 8 wdata) = (.okay, s) ∧
    ∀ k : Fin 32, busAccess s (.write (BitVec.ofNat 12 (0x100 + 8 * k)) 8 wdata) = (.okay, s)

/-- An access that is not 8 bytes, not 8-byte aligned or not in a mapped row answers BUS_ERROR and changes nothing but
the answer: not ERR, not ERRCMD, not `irq`. A legal one never answers BUS_ERROR (R52, R53, R54, 60_exceptions.md
R261). -/
def Obligations.IllegalAccessesChangeNothing : Prop :=
  ∀ (addr : Offset) (size : Nat) (s : State) (rest : List HostEvent) (a : BusAccess),
    (a = .read addr size ∨ ∃ wdata, a = .write addr size wdata) → Accessing a rest s →
    (¬LegalAccess addr size → step s = .next { s with host := rest, answer := some .busError }) ∧
    (LegalAccess addr size → ∃ t, step s = .next t ∧ t.answer ≠ some .busError)

/-- A read changes nothing but the answer, and a second read of the same location answers the same (R60). -/
def Obligations.ReadsAreIdempotent : Prop :=
  ∀ (s : State) (addr : Offset) (size : Nat) (rest : List HostEvent),
    Accessing (.read addr size) (.access (.read addr size) :: rest) s →
    ∃ ans, step s = .next { s with host := .access (.read addr size) :: rest, answer := some ans } ∧
      step { s with host := .access (.read addr size) :: rest, answer := some ans } =
        .next { s with host := rest, answer := some ans }

/-- A write of any value to STATUS clears ERR and changes nothing else; the next command word is then accepted
(60_exceptions.md R265), and answered at its completion (the model's choice, log 18). -/
def Obligations.StatusWriteClearsErrorOnly : Prop :=
  ∀ (s : State) (wdata next : Limb) (rest : List HostEvent),
    Accessing (.write 0x088#12 8 wdata) (.access (.write 0x080#12 8 next) :: rest) s →
    ∃ t, t = { s with err := .none, host := .access (.write 0x080#12 8 next) :: rest, answer := some .okay } ∧
      step s = .next t ∧
      step t = .next { t with busy := true, pending := next.extractLsb' 0 32, host := rest, answer := none }

/-- `irq` is the held error masked by IRQ_EN. Setting IRQ_EN while an error is held raises it at once; only a STATUS
write or a CTRL write of 0 (60_exceptions.md R264), or a move of `rst` (70_reset_and_hazards.md R290), lowers it. -/
def Obligations.InterruptFollowsHeldError : Prop :=
  (∀ s : State, s.irq = true ↔ s.err ≠ .none ∧ s.irqEn = true) ∧
  (∀ (s : State) (wdata : Limb) (rest : List HostEvent), Accessing (.write 0x090#12 8 wdata) rest s →
    s.err ≠ .none → ∃ t, step s = .next t ∧ t.irq = wdata.getLsbD 0) ∧
  (∀ s t : State, s.irq = true → step s = .next t → t.irq = false →
    (∃ level rest, s.host = .rst level :: rest) ∨
    (∃ wdata rest, s.host = .access (.write 0x088#12 8 wdata) :: rest) ∨
    (∃ wdata rest, s.host = .access (.write 0x090#12 8 wdata) :: rest ∧ wdata.getLsbD 0 = false))

/-! ## Copy, move and conversion (40_convert.md) -/

/-- CPY copies both limbs and changes its destination only. MVZ moves: the source is left zero, unless it is the
destination, which keeps the value (R100, R102). -/
def Obligations.CopyAndMove : Prop :=
  ∀ (s : State) (d a : Reg), s.err = .none →
    CompletesWith (.cpy d a) s (fun t => t.getU d = s.getU a ∧ ChangesOnly [d] s t) ∧
    CompletesWith (.mvz d a) s (fun t =>
      t.getU d = s.getU a ∧ (a ≠ d → t.getU a = 0#128) ∧ ChangesOnly [d, a] s t)

/-- WIDEN: the high limb is 0; the low limb has the native integer's bits below its width, and above them copies of
its top bit if signed and 0 if not (R104). -/
def Obligations.WidenExtendsNativeInteger : Prop :=
  ∀ (s : State) (d a : Reg) (signed : Bool) (w : Width), s.err = .none → ¬(signed = true ∧ w = .bool) →
    CompletesWith (.widen d a signed w) s (fun t =>
      highLimb (t.getU d) = 0#64 ∧
      (∀ j, j < 64 → (lowLimb (t.getU d)).getLsbD j =
        if j < w.bits then (s.getU a).getLsbD j else signed && (s.getU a).getLsbD (w.bits - 1)) ∧
      ChangesOnly [d] s t)

/-- NARROW to bool is 1 exactly for a value that is not zero; to a wider integer it keeps the low bits and discards
the rest (R106). -/
def Obligations.NarrowKeepsLowBits : Prop :=
  ∀ (s : State) (d a : Reg) (w : Width), s.err = .none →
    CompletesWith (.narrow d a w) s (fun t =>
      (w = .bool → val (t.getU d) = if val (s.getU a) = 0 then 0 else 1) ∧
      (w ≠ .bool → val (t.getU d) = val (s.getU a) % 2 ^ w.bits) ∧ ChangesOnly [d] s t)

/-- The two forms no word encodes, WIDEN of a signed bool and DIVMOD with equal destinations, are ILLEGAL: ERR and
ERRCMD are set and nothing else is written (30_encoding.md R88 f and h; 60_exceptions.md R262). The model's choice:
`exec` says so of these two terms (log 12), and the word is read from PENDING (log 7). -/
def Obligations.UnencodableFormsRaiseIllegal : Prop :=
  ∀ (s : State) (d a b : Reg), s.err = .none →
    exec (.widen d a true .bool) s = .next { s with err := .illegal, errCmd := s.pending } ∧
    exec (.divmod d d a b) s = .next { s with err := .illegal, errCmd := s.pending }

/-! ## Bitwise and shifts (41_bitwise.md, 42_shift.md) -/

/-- Each bit of the result depends on that bit of the operands only (R120 to R123). -/
def Obligations.BitwiseActsBitByBit : Prop :=
  ∀ (s : State) (d a b : Reg), s.err = .none →
    CompletesWith (.and d a b) s (fun t => (∀ j, j < 128 →
      (t.getU d).getLsbD j = ((s.getU a).getLsbD j && (s.getU b).getLsbD j)) ∧ ChangesOnly [d] s t) ∧
    CompletesWith (.or d a b) s (fun t => (∀ j, j < 128 →
      (t.getU d).getLsbD j = ((s.getU a).getLsbD j || (s.getU b).getLsbD j)) ∧ ChangesOnly [d] s t) ∧
    CompletesWith (.xor d a b) s (fun t => (∀ j, j < 128 →
      (t.getU d).getLsbD j = ((s.getU a).getLsbD j ^^ (s.getU b).getLsbD j)) ∧ ChangesOnly [d] s t) ∧
    CompletesWith (.not d a) s (fun t => (∀ j, j < 128 →
      (t.getU d).getLsbD j = !(s.getU a).getLsbD j) ∧ ChangesOnly [d] s t)

/-- SHL multiplies by a power of two modulo 2^128 and is zero for every amount of 128 or more, a high limb that is not
zero included; the limb cases of R143 give the same, by the spec's own inference in R143 (R140, R141). -/
def Obligations.ShiftLeftByLimbs : Prop :=
  ∀ (s : State) (d a b : Reg), s.err = .none →
    CompletesWith (.shl d a b) s (fun t =>
      val (t.getU d) =
        (if 128 ≤ val (s.getU b) then 0 else val (s.getU a) * 2 ^ val (s.getU b) % 2 ^ 128) ∧
      t.getU d = shlByLimbs (s.getU a) (s.getU b) ∧ ChangesOnly [d] s t)

/-- SHR divides by a power of two, rounding down, and is zero for every amount of 128 or more (R140, R142); the limb
cases of R144 give the same, which that rule marks as the spec's own inference. -/
def Obligations.ShiftRightByLimbs : Prop :=
  ∀ (s : State) (d a b : Reg), s.err = .none →
    CompletesWith (.shr d a b) s (fun t =>
      val (t.getU d) = (if 128 ≤ val (s.getU b) then 0 else val (s.getU a) / 2 ^ val (s.getU b)) ∧
      t.getU d = shrByLimbs (s.getU a) (s.getU b) ∧ ChangesOnly [d] s t)

/-! ## Comparisons (43_compare.md) -/

/-- The six comparisons order the 128-bit values as unsigned numbers and write 1 or 0 (R160 to R166). -/
def Obligations.ComparisonsOrderValues : Prop :=
  ∀ (s : State) (d a b : Reg), s.err = .none →
    let x := val (s.getU a)
    let y := val (s.getU b)
    CompletesWith (.ceq d a b) s (fun t => val (t.getU d) = (if x = y then 1 else 0) ∧ ChangesOnly [d] s t) ∧
    CompletesWith (.cne d a b) s (fun t => val (t.getU d) = (if x ≠ y then 1 else 0) ∧ ChangesOnly [d] s t) ∧
    CompletesWith (.clt d a b) s (fun t => val (t.getU d) = (if x < y then 1 else 0) ∧ ChangesOnly [d] s t) ∧
    CompletesWith (.cgt d a b) s (fun t => val (t.getU d) = (if y < x then 1 else 0) ∧ ChangesOnly [d] s t) ∧
    CompletesWith (.cle d a b) s (fun t => val (t.getU d) = (if x ≤ y then 1 else 0) ∧ ChangesOnly [d] s t) ∧
    CompletesWith (.cge d a b) s (fun t => val (t.getU d) = (if y ≤ x then 1 else 0) ∧ ChangesOnly [d] s t)

/-! ## Adder, subtractor, multiplier (44_arith.md) -/

/-- ADD is addition modulo 2^128 (R180). The carry propagation of R181 computes it, and its carry test is exact: the
64-bit sum wraps just when it is below either addend, which R181 marks as the spec's own inference. -/
def Obligations.AddPropagatesCarry : Prop :=
  ∀ (s : State) (d a b : Reg), s.err = .none →
    let x := lowLimb (s.getU a)
    let y := lowLimb (s.getU b)
    CompletesWith (.add d a b) s (fun t =>
      val (t.getU d) = (val (s.getU a) + val (s.getU b)) % 2 ^ 128 ∧
      t.getU d = addByLimbs (s.getU a) (s.getU b) ∧
      ((x + y).toNat < x.toNat ↔ 2 ^ 64 ≤ x.toNat + y.toNat) ∧
      ((x + y).toNat < y.toNat ↔ 2 ^ 64 ≤ x.toNat + y.toNat) ∧ ChangesOnly [d] s t)

/-- SUB is subtraction modulo 2^128 (R182). The borrow propagation of R183 computes it, and its borrow test is exact,
which R183 marks as the spec's own inference. -/
def Obligations.SubPropagatesBorrow : Prop :=
  ∀ (s : State) (d a b : Reg), s.err = .none →
    CompletesWith (.sub d a b) s (fun t =>
      (val (t.getU d) : Int) = ((val (s.getU a) : Int) - (val (s.getU b) : Int)) % 2 ^ 128 ∧
      t.getU d = subByLimbs (s.getU a) (s.getU b) ∧
      ((lowLimb (s.getU a)).toNat < (lowLimb (s.getU a) - lowLimb (s.getU b)).toNat ↔
        (lowLimb (s.getU a)).toNat < (lowLimb (s.getU b)).toNat) ∧ ChangesOnly [d] s t)

/-- NEG, INC and DEC are negation, adding one and subtracting one modulo 2^128; NEG is also the complement plus one
(R184, R185, R186). -/
def Obligations.NegateIncrementDecrement : Prop :=
  ∀ (s : State) (d a : Reg), s.err = .none →
    CompletesWith (.neg d a) s (fun t =>
      (val (t.getU d) : Int) = -(val (s.getU a) : Int) % 2 ^ 128 ∧ t.getU d = ~~~(s.getU a) + 1#128 ∧
      ChangesOnly [d] s t) ∧
    CompletesWith (.inc d a) s (fun t =>
      val (t.getU d) = (val (s.getU a) + 1) % 2 ^ 128 ∧ ChangesOnly [d] s t) ∧
    CompletesWith (.dec d a) s (fun t =>
      (val (t.getU d) : Int) = ((val (s.getU a) : Int) - 1) % 2 ^ 128 ∧ ChangesOnly [d] s t)

/-- MUL is multiplication modulo 2^128 (R187). The sixteen digit products of R188 sum to it, and so do the ten with
`i + j ≤ 3`, which R188 marks as the spec's own inference. -/
def Obligations.MultiplyByDigits : Prop :=
  ∀ (s : State) (d a b : Reg), s.err = .none →
    CompletesWith (.mul d a b) s (fun t =>
      val (t.getU d) = val (s.getU a) * val (s.getU b) % 2 ^ 128 ∧
      t.getU d = schoolbookMul allDigitPairs (s.getU a) (s.getU b) ∧
      t.getU d = schoolbookMul (allDigitPairs.filter fun p => p.1 + p.2 ≤ 3) (s.getU a) (s.getU b) ∧
      ChangesOnly [d] s t)

/-- For every two values SUB is ADD of the NEG, and INC is ADD of one: two laws of R190, which that rule marks as the
spec's own inference. -/
def Obligations.SubtractionAddsNegation : Prop :=
  ∀ (s : State) (d a b p : Reg), s.err = .none → p ≠ a →
    (∃ t1 t2 v, exec (.neg p b) s = .next t1 ∧ exec (.add d a p) t1 = .next t2 ∧ exec (.sub d a b) s = .next v ∧
      t2.getU d = v.getU d) ∧
    (s.getU b = 1#128 → ∃ t v, exec (.add d a b) s = .next t ∧ exec (.inc d a) s = .next v ∧ t = v)

/-! ## Divider (45_divide.md) -/

/-- DIV and MOD with a divisor that is not zero give the quotient and the remainder of R214 (R210, R211, R214). -/
def Obligations.QuotientAndRemainder : Prop :=
  ∀ (s : State) (d a b : Reg), s.err = .none → val (s.getU b) ≠ 0 →
    let n := val (s.getU a)
    let m := val (s.getU b)
    CompletesWith (.div d a b) s (fun t =>
      (∃ r, n = val (t.getU d) * m + r ∧ r < m) ∧ ChangesOnly [d] s t) ∧
    CompletesWith (.mod d a b) s (fun t =>
      (∃ q, n = q * m + val (t.getU d)) ∧ val (t.getU d) < m ∧ ChangesOnly [d] s t)

/-- DIVMOD with a divisor that is not zero and two destinations writes both, from the old sources, and each equals
what DIV and MOD write, which R212 marks as the spec's own inference (R214). -/
def Obligations.DivmodWritesBoth : Prop :=
  ∀ (s : State) (q r a b : Reg), s.err = .none → q ≠ r → val (s.getU b) ≠ 0 →
    CompletesWith (.divmod q r a b) s (fun t =>
      val (s.getU a) = val (t.getU q) * val (s.getU b) + val (t.getU r) ∧
      val (t.getU r) < val (s.getU b) ∧ ChangesOnly [q, r] s t ∧
      CompletesWith (.div q a b) s (fun v => v.getU q = t.getU q) ∧
      CompletesWith (.mod r a b) s (fun v => v.getU r = t.getU r))

/-- A zero divisor raises DOMAIN in all three commands, whatever the dividend, and writes no operand register; no
other divisor makes them fail (R213). ERRCMD takes the command word (60_exceptions.md R262), which is read from PENDING:
the model's choice (log 7). -/
def Obligations.ZeroDivisorRaisesDomain : Prop :=
  ∀ (s : State) (d r a b : Reg) (i : Instr), s.err = .none →
    (i = .div d a b ∨ i = .mod d a b ∨ (i = .divmod d r a b ∧ d ≠ r)) →
    (val (s.getU b) = 0 → exec i s = .next { s with err := .domain, errCmd := s.pending }) ∧
    (val (s.getU b) ≠ 0 → CompletesWith i s (fun t => t.err = .none))

/-- The bit-at-a-time long division of the source (R215) gives the quotient and the remainder of R214; R215 marks it as
the spec's own inference that the shortcuts and 128 bits suffice. -/
def Obligations.LongDivisionIsDivision : Prop :=
  ∀ n m : U128, m ≠ 0#128 → longDivide n m = (quotient n m, remainder n m)

/-- Quotient times divisor plus remainder, computed by the commands DIVMOD, MUL and ADD, is the dividend, exactly: the
first law of R217, which that rule marks as the spec's own inference. -/
def Obligations.DivmodMulAddRestoresDividend : Prop :=
  ∀ (s : State) (a b q r p : Reg), s.err = .none → val (s.getU b) ≠ 0 → q ≠ r → b ≠ q → b ≠ r → p ≠ r →
    ∃ t1 t2 t3, exec (.divmod q r a b) s = .next t1 ∧ exec (.mul p q b) t1 = .next t2 ∧
      exec (.add p p r) t2 = .next t3 ∧ t3.getU p = s.getU a

/-- BITLEN writes the number `n` of significant bits: the value is below 2^n, not below 2^(n-1), and 0 has none; the
limb-by-limb scan gives the same (R216). -/
def Obligations.BitLengthBoundsValue : Prop :=
  ∀ (s : State) (d a : Reg), s.err = .none →
    CompletesWith (.bitlen d a) s (fun t =>
      let n := val (t.getU d)
      n ≤ 128 ∧ val (s.getU a) < 2 ^ n ∧ (n = 0 ∨ 2 ^ (n - 1) ≤ val (s.getU a)) ∧
      n = bitLengthByLimbs (s.getU a) ∧ ChangesOnly [d] s t)

/-! ## String renderer (46_string.md) -/

/-- STR with a legal base leaves a text of digits of that base that denotes the value, as long as the value's own
digits or MINLEN, whichever is more; every byte past it is 0x00; only STRBUF and STRLEN change (R240 to R244). -/
def Obligations.StrRendersValue : Prop :=
  ∀ (s : State) (a : Reg) (base : BitVec 5) (minlen : BitVec 8), s.err = .none →
    2 ≤ base.toNat → base.toNat ≤ 16 →
    CompletesWith (.str a base minlen) s (fun t =>
      (∀ c ∈ t.text, IsDigitOf base.toNat c) ∧ textValue base.toNat t.text = val (s.getU a) ∧
      (∃ n, 1 ≤ n ∧ val (s.getU a) < base.toNat ^ n ∧ (n = 1 ∨ base.toNat ^ (n - 1) ≤ val (s.getU a)) ∧
        t.strLen.toNat = max n minlen.toNat) ∧
      (∀ i, t.strLen.toNat ≤ i → t.strByte i = 0x00#8) ∧ ChangesOnlyText s t)

/-- STR with a base outside 2..16 raises INVALID_ARG, for every value, and writes neither STRBUF nor STRLEN (R245).
ERRCMD takes the command word (60_exceptions.md R262), which is read from PENDING: the model's choice (log 7). -/
def Obligations.StrRejectsBadBase : Prop :=
  ∀ (s : State) (a : Reg) (base : BitVec 5) (minlen : BitVec 8), s.err = .none →
    (base.toNat < 2 ∨ 16 < base.toNat) →
    exec (.str a base minlen) s = .next { s with err := .invalidArg, errCmd := s.pending }

/-! ## All commands -/

/-- Every command answers a next state, in every state. -/
def Obligations.EveryCommandAnswersNext : Prop := ∀ (i : Instr) (s : State), ∃ t, exec i s = .next t

/-- A command writes no operand register but its destinations; only STR writes STRBUF and STRLEN; none touches
IRQ_EN, BUSY, PENDING, `rst` or the host's side (10_state.md R22, R32; 60_exceptions.md R276). -/
def Obligations.OnlyDestinationsAreWritten : Prop :=
  ∀ (i : Instr) (s t : State), exec i s = .next t →
    (∀ r, r ∉ dests i → t.getU r = s.getU r) ∧
    (rendersText i = false → t.strLen = s.strLen ∧ ∀ k, t.strByte k = s.strByte k) ∧
    t.irqEn = s.irqEn ∧ t.busy = s.busy ∧ t.pending = s.pending ∧ t.rst = s.rst ∧ t.host = s.host ∧
    t.answer = s.answer

/-- A well-formed command raises DOMAIN for a zero divisor of DIV, MOD, DIVMOD, INVALID_ARG for a bad base of STR, and
nothing else ever (60_exceptions.md R260). -/
def Obligations.OnlyListedErrorsAreRaised : Prop :=
  ∀ (i : Instr) (s : State), i.wellFormed = true → s.err = .none →
    CompletesWith i s (fun t => t.err = operandError i s)

/-- A command that raises an error writes ERR and ERRCMD and nothing else: no operand register, no byte of STRBUF, not
STRLEN; so does every word in flight, legal or not, and BUSY is 0 and the CMD write answered after it (60_exceptions.md
R262). The model's choice: the word is read from PENDING (log 7), which the step keeps (log 6), and the OKAY is given
with the completion (log 18). -/
def Obligations.ErrorsArePrecise : Prop :=
  (∀ (i : Instr) (s t : State), s.err = .none → exec i s = .next t → t.err ≠ .none →
    t = { s with err := t.err, errCmd := s.pending }) ∧
  (∀ s t : State, InFlight s → s.err = .none → step s = .next t → t.err ≠ .none →
    t = { s with err := t.err, errCmd := s.pending, busy := false, answer := some .okay })

/-- ERR and ERRCMD keep the first failure through every step until a STATUS write clears ERR or `rst` moves
(60_exceptions.md R263, R265, R290; R267 marks it as the spec's own inference). -/
def Obligations.FirstErrorIsKept : Prop :=
  ∀ s t : State, s.err ≠ .none → step s = .next t →
    (t.err = s.err ∧ t.errCmd = s.errCmd) ∨ (∃ level rest, s.host = .rst level :: rest) ∨
    (∃ wdata rest, s.host = .access (.write 0x088#12 8 wdata) :: rest ∧ t.err = .none ∧ t.errCmd = s.errCmd)

/-- What a command writes depends on its source registers only: two states that agree on them get the same error, the
same destinations and the same text (92_eei_decisions.md D30; 00_scope.md R11). -/
def Obligations.ResultsDependOnSourcesOnly : Prop :=
  ∀ (i : Instr) (s s' t t' : State), s.err = .none → s'.err = .none →
    (∀ r ∈ sources i, s.getU r = s'.getU r) → exec i s = .next t → exec i s' = .next t' →
    t.err = t'.err ∧
    (t.err = .none → (∀ r ∈ dests i, t.getU r = t'.getU r) ∧
      (rendersText i = true → t.strLen = t'.strLen ∧ ∀ k, t.strByte k = t'.strByte k))

/-! ## The invariant -/

/-- Every step keeps the invariant of the block: the buffer's form and text, no command in flight beside a held error
or an answered access, every held error explained by ERRCMD, everything at reset while `rst` is asserted (10_state.md R27,
R29; 60_exceptions.md R263; 70_reset_and_hazards.md R290, R300). The model's choice: the buffer's form (log 9), when a CMD
write is answered (log 18), and, in the reset state held while `rst` is asserted, PENDING 0 (log 5, where R35 leaves it
unspecified) and no answer (log 10). -/
def Obligations.StepKeepsInvariant : Prop := ∀ s t : State, s.Inv → step s = .next t → t.Inv

/-- The invariant holds at reset. -/
def Obligations.ResetHasInvariant : Prop := State.reset.Inv

/-! ## The end of a run (70_reset_and_hazards.md R300) -/

/-- Every access is answered in its step, with BUSY 0, but for a CMD write that issues a command: it is answered `OKAY`,
with BUSY 0, by the next step, unless `rst` moves first. So a run whose host has no access left has ended just when its
last access has been answered, and the block is idle then (R300). That the OKAY of an accepted CMD write comes with the
completion is the model's choice (log 18), as is the one step to it (log 3); a CMD write that `rst` cuts off is shut out
of the clause on the next step, and that its run counts as ended is the model's choice (log 19). -/
def Obligations.RunEndsWithLastAnswer : Prop :=
  ∀ (s : State) (a : BusAccess) (rest : List HostEvent), Accessing a rest s →
    ∃ t, step s = .next t ∧ (t.answer = none ↔ t.busy = true) ∧
      (rest.any HostEvent.isAccess = false → (runEnded t = true ↔ t.answer ≠ none)) ∧
      (t.answer = none → (∀ level, rest.head? ≠ some (.rst level)) →
        ∃ v, step t = .next v ∧ v.answer = some .okay ∧ v.busy = false ∧
          (rest.any HostEvent.isAccess = false → runEnded v = true))

/-- The observable end state of a run is the values of U0..U7, STATUS, CTRL, ERRCMD, STRLEN and STRBUF: a read of each of
their offsets returns data and changes nothing, and what the reads return is the same in two states just when all these
values are (70_reset_and_hazards.md R300; 20_memory.md R60). -/
def Obligations.EndStateIsReadable : Prop :=
  (∀ (s : State) (a : Offset), a ∈ readableOffsets → ∃ d, busAccess s (.read a 8) = (.data d, s)) ∧
  ∀ s t : State, endState s = endState t ↔
    (∀ r, s.getU r = t.getU r) ∧ s.err = t.err ∧ s.irqEn = t.irqEn ∧ s.errCmd = t.errCmd ∧ s.strLen = t.strLen ∧
    ∀ i, i < 256 → s.strByte i = t.strByte i
end

