-- ==== Sys2Proof/Laws/Memory.lean ====
section
/-! SUPPORT. The laws of the byte storage: a read after a write, and that every operation keeps the canonical form. -/

namespace Sys2Proof.Machine

/-- A canonical memory from `lo` on lists nothing below `lo`. -/
theorem Memory.read_below {lo : Nat} {m : Memory} (h : Memory.wfFrom lo m = true) {k : Nat} (hk : k < lo) :
    Memory.read m k = Config.unwrittenByte := by
  induction m generalizing lo with
  | nil => rfl
  | cons cell rest ih =>
    obtain ⟨a, b⟩ := cell
    simp only [Memory.wfFrom, Bool.and_eq_true, decide_eq_true_eq] at h
    have : a ≠ k := by omega
    simp only [Memory.read, this, if_false]
    exact ih h.2 (by omega)

/-- A canonical memory from `lo` on is canonical from any lower bound. -/
theorem Memory.wfFrom_mono {lo lo' : Nat} {m : Memory} (h : Memory.wfFrom lo m = true) (hl : lo' ≤ lo) :
    Memory.wfFrom lo' m = true := by
  cases m with
  | nil => rfl
  | cons cell rest =>
    simp only [Memory.wfFrom, Bool.and_eq_true, decide_eq_true_eq] at h ⊢
    exact ⟨⟨by omega, h.1.2⟩, h.2⟩

/-- Putting a cell in front keeps the canonical form. -/
theorem Memory.cons_wfFrom {lo k : Nat} {v : Byte} {m : Memory} (h : Memory.wfFrom (k + 1) m = true) (hk : lo ≤ k) :
    Memory.wfFrom lo (Memory.cons k v m) = true := by
  unfold Memory.cons
  split
  · exact Memory.wfFrom_mono h (by omega)
  · next hv => simp [Memory.wfFrom, hk, h, hv]

/-- What a memory with a cell put in front reads as. -/
theorem Memory.read_cons {k : Nat} {v : Byte} {m : Memory} (h : Memory.wfFrom (k + 1) m = true) (j : Nat) :
    Memory.read (Memory.cons k v m) j = if j = k then v else Memory.read m j := by
  unfold Memory.cons
  split
  · next hv =>
    split
    · next hj => subst hj; rw [Memory.read_below h (by omega), hv]
    · rfl
  · simp only [Memory.read, eq_comm]

/-- A write keeps the canonical form. -/
theorem Memory.write_wfFrom {lo k : Nat} {v : Byte} {m : Memory} (h : Memory.wfFrom lo m = true) (hk : lo ≤ k) :
    Memory.wfFrom lo (Memory.write m k v) = true := by
  induction m generalizing lo with
  | nil => exact Memory.cons_wfFrom rfl hk
  | cons cell rest ih =>
    obtain ⟨a, b⟩ := cell
    have h' := h
    simp only [Memory.wfFrom, Bool.and_eq_true, decide_eq_true_eq] at h'
    simp only [Memory.write]
    split
    · next hka =>
      refine Memory.cons_wfFrom ?_ hk
      simp only [Memory.wfFrom, Bool.and_eq_true, decide_eq_true_eq]
      exact ⟨⟨by omega, h'.1.2⟩, h'.2⟩
    · split
      · next hka => subst hka; exact Memory.cons_wfFrom h'.2 hk
      · simp only [Memory.wfFrom, Bool.and_eq_true, decide_eq_true_eq]
        exact ⟨h'.1, ih h'.2 (by omega)⟩

/-- A write keeps the canonical form. -/
theorem Memory.write_wf {m : Memory} (h : Memory.wf m = true) (k : Nat) (v : Byte) :
    Memory.wf (Memory.write m k v) = true :=
  Memory.write_wfFrom h (Nat.zero_le k)

/-- A read after a write gives the byte written there, and every other byte as it was. -/
theorem Memory.read_write {lo : Nat} {m : Memory} (h : Memory.wfFrom lo m = true) (k : Nat) (v : Byte) (j : Nat) :
    Memory.read (Memory.write m k v) j = if j = k then v else Memory.read m j := by
  induction m generalizing lo with
  | nil => exact Memory.read_cons rfl j
  | cons cell rest ih =>
    obtain ⟨a, b⟩ := cell
    have h' := h
    simp only [Memory.wfFrom, Bool.and_eq_true, decide_eq_true_eq] at h'
    simp only [Memory.write]
    split
    · next hka =>
      refine Memory.read_cons ?_ j
      simp only [Memory.wfFrom, Bool.and_eq_true, decide_eq_true_eq]
      exact ⟨⟨by omega, h'.1.2⟩, h'.2⟩
    · split
      · next hka =>
        subst hka
        rw [Memory.read_cons h'.2]
        split
        · rfl
        · next hj =>
          have hkj : k ≠ j := fun e => hj e.symm
          simp [Memory.read, hkj]
      · next hka hne =>
        simp only [Memory.read]
        split
        · next haj => subst haj; simp [Ne.symm hne]
        · exact ih h'.2

/-- A text buffer is canonical. -/
theorem textBuf_wfFrom (t : List Byte) : ∀ i, Memory.wfFrom i (textBuf i t) = true := by
  induction t with
  | nil => exact fun _ => rfl
  | cons c t ih => exact fun i => Memory.write_wfFrom (Memory.wfFrom_mono (ih (i + 1)) (by omega)) (Nat.le_refl i)

/-- The buffer a text is stored in is canonical. -/
theorem textBuf_wf (t : List Byte) : Memory.wf (textBuf 0 t) = true := textBuf_wfFrom t 0

/-- What a text buffer reads as: its characters from `i` on, and the unwritten byte everywhere else. -/
theorem read_textBuf (t : List Byte) (i j : Nat) :
    Memory.read (textBuf i t) j = if i ≤ j then t.getD (j - i) Config.unwrittenByte else Config.unwrittenByte := by
  induction t generalizing i with
  | nil => simp [textBuf, Memory.read]
  | cons c t ih =>
    rw [textBuf, Memory.read_write (textBuf_wfFrom t (i + 1)), ih (i + 1)]
    rcases Nat.lt_trichotomy j i with h | h | h
    · have h1 : ¬ i ≤ j := by omega
      have h2 : ¬ i + 1 ≤ j := by omega
      have h3 : j ≠ i := by omega
      simp [h1, h2, h3]
    · subst h; simp
    · have h1 : i ≤ j := by omega
      have h2 : i + 1 ≤ j := by omega
      have h3 : j ≠ i := by omega
      obtain ⟨d, rfl⟩ : ∃ d, j = i + 1 + d := ⟨j - (i + 1), by omega⟩
      have h4 : i + 1 + d - i = d + 1 := by omega
      have h5 : i + 1 + d - (i + 1) = d := by omega
      simp only [h1, h2, h3, if_true, if_false, h4, h5, List.getD_cons_succ]

/-- A cell put in front adds its own address only. -/
theorem Memory.mem_cons {k : Nat} {v : Byte} {m : Memory} {cell : Host.Cell} (h : cell ∈ Memory.cons k v m) :
    cell.1 = k ∨ cell ∈ m := by
  unfold Memory.cons at h
  split at h
  · exact .inr h
  · rcases List.mem_cons.1 h with rfl | h
    · exact .inl rfl
    · exact .inr h

/-- A write lists the address written and addresses that were listed before. -/
theorem Memory.mem_write {m : Memory} {k : Nat} {v : Byte} {cell : Host.Cell} (h : cell ∈ Memory.write m k v) :
    cell.1 = k ∨ cell ∈ m := by
  induction m with
  | nil => exact Memory.mem_cons h
  | cons first rest ih =>
    obtain ⟨a, b⟩ := first
    simp only [Memory.write] at h
    split at h
    · exact Memory.mem_cons h
    · split at h
      · exact (Memory.mem_cons h).imp_right (List.mem_cons_of_mem _)
      · rcases List.mem_cons.1 h with rfl | h
        · exact .inr (List.mem_cons_self ..)
        · exact (ih h).imp_right (List.mem_cons_of_mem _)

/-- A text buffer lists addresses of the text only. -/
theorem textBuf_inside (t : List Byte) : ∀ i, ∀ cell ∈ textBuf i t, i ≤ cell.1 ∧ cell.1 < i + t.length := by
  induction t with
  | nil => intro i cell h; simp [textBuf] at h
  | cons c t ih =>
    intro i cell h
    rcases Memory.mem_write h with h | h
    · simp [h]
    · have := ih (i + 1) cell h
      simp only [List.length_cons]
      omega

end Sys2Proof.Machine
end

