-- ==== Sys2Proof/Laws/State.lean ====
section
/-! SUPPORT. The small lemmas of State: one per field per update, and the operand registers read after a write. -/

namespace Sys2Proof.Machine

variable (s : State) (r : Reg) (v : U128) (code : ErrCode) (t : List Byte)

/-! ## `setU` -/

@[simp] theorem State.setU_err : (s.setU r v).err = s.err := rfl
@[simp] theorem State.setU_irqEn : (s.setU r v).irqEn = s.irqEn := rfl
@[simp] theorem State.setU_errCmd : (s.setU r v).errCmd = s.errCmd := rfl
@[simp] theorem State.setU_strLen : (s.setU r v).strLen = s.strLen := rfl
@[simp] theorem State.setU_strBuf : (s.setU r v).strBuf = s.strBuf := rfl
@[simp] theorem State.setU_busy : (s.setU r v).busy = s.busy := rfl
@[simp] theorem State.setU_pending : (s.setU r v).pending = s.pending := rfl
@[simp] theorem State.setU_rst : (s.setU r v).rst = s.rst := rfl
@[simp] theorem State.setU_host : (s.setU r v).host = s.host := rfl
@[simp] theorem State.setU_answer : (s.setU r v).answer = s.answer := rfl
@[simp] theorem State.setU_strByte (i : Nat) : (s.setU r v).strByte i = s.strByte i := rfl

/-- A register reads what was written to it. -/
@[simp] theorem State.getU_setU_self : (s.setU r v).getU r = v := by simp [State.setU, State.getU]

/-- A write leaves every other register alone. -/
theorem State.getU_setU_of_ne (r' : Reg) (h : r' ≠ r) : (s.setU r v).getU r' = s.getU r' := by
  have : (r : Nat) ≠ r' := fun e => h (Fin.ext e.symm)
  simp [State.setU, State.getU, this]

/-- A register read after a write, by cases. -/
theorem State.getU_setU (r' : Reg) : (s.setU r v).getU r' = if r' = r then v else s.getU r' := by
  split
  · next h => subst h; simp
  · next h => exact State.getU_setU_of_ne s r v r' h

/-! ## `raise` -/

@[simp] theorem State.raise_u : (s.raise code).u = s.u := rfl
@[simp] theorem State.raise_getU : (s.raise code).getU r = s.getU r := rfl
@[simp] theorem State.raise_err : (s.raise code).err = code := rfl
@[simp] theorem State.raise_irqEn : (s.raise code).irqEn = s.irqEn := rfl
@[simp] theorem State.raise_errCmd : (s.raise code).errCmd = s.pending := rfl
@[simp] theorem State.raise_strLen : (s.raise code).strLen = s.strLen := rfl
@[simp] theorem State.raise_strBuf : (s.raise code).strBuf = s.strBuf := rfl
@[simp] theorem State.raise_busy : (s.raise code).busy = s.busy := rfl
@[simp] theorem State.raise_pending : (s.raise code).pending = s.pending := rfl
@[simp] theorem State.raise_rst : (s.raise code).rst = s.rst := rfl
@[simp] theorem State.raise_host : (s.raise code).host = s.host := rfl
@[simp] theorem State.raise_answer : (s.raise code).answer = s.answer := rfl
@[simp] theorem State.raise_strByte (i : Nat) : (s.raise code).strByte i = s.strByte i := rfl

/-! ## `clearError` -/

@[simp] theorem State.clearError_u : s.clearError.u = s.u := rfl
@[simp] theorem State.clearError_getU : s.clearError.getU r = s.getU r := rfl
@[simp] theorem State.clearError_err : s.clearError.err = .none := rfl
@[simp] theorem State.clearError_irqEn : s.clearError.irqEn = s.irqEn := rfl
@[simp] theorem State.clearError_errCmd : s.clearError.errCmd = s.errCmd := rfl
@[simp] theorem State.clearError_strLen : s.clearError.strLen = s.strLen := rfl
@[simp] theorem State.clearError_strBuf : s.clearError.strBuf = s.strBuf := rfl
@[simp] theorem State.clearError_busy : s.clearError.busy = s.busy := rfl
@[simp] theorem State.clearError_pending : s.clearError.pending = s.pending := rfl
@[simp] theorem State.clearError_rst : s.clearError.rst = s.rst := rfl
@[simp] theorem State.clearError_host : s.clearError.host = s.host := rfl
@[simp] theorem State.clearError_answer : s.clearError.answer = s.answer := rfl

/-! ## `storeText` -/

@[simp] theorem State.storeText_u : (s.storeText t).u = s.u := rfl
@[simp] theorem State.storeText_getU : (s.storeText t).getU r = s.getU r := rfl
@[simp] theorem State.storeText_err : (s.storeText t).err = s.err := rfl
@[simp] theorem State.storeText_irqEn : (s.storeText t).irqEn = s.irqEn := rfl
@[simp] theorem State.storeText_errCmd : (s.storeText t).errCmd = s.errCmd := rfl
@[simp] theorem State.storeText_strLen : (s.storeText t).strLen = BitVec.ofNat 8 t.length := rfl
@[simp] theorem State.storeText_strBuf : (s.storeText t).strBuf = textBuf 0 t := rfl
@[simp] theorem State.storeText_busy : (s.storeText t).busy = s.busy := rfl
@[simp] theorem State.storeText_pending : (s.storeText t).pending = s.pending := rfl
@[simp] theorem State.storeText_rst : (s.storeText t).rst = s.rst := rfl
@[simp] theorem State.storeText_host : (s.storeText t).host = s.host := rfl
@[simp] theorem State.storeText_answer : (s.storeText t).answer = s.answer := rfl

end Sys2Proof.Machine
end

