-- ==== Sys2Proof/Laws/Ops.lean ====
section
/-! SUPPORT. What each shared operation of the commands can do, said once. -/

namespace Sys2Proof.Machine

/-- With no error held, a command has its effect. -/
theorem command_of_clear {s : State} (h : s.err = .none) (effect : State → State) :
    command effect s = .next (effect s) := by
  simp [command, h]

/-- While an error is held, a command is discarded (60_exceptions.md R263). -/
theorem command_of_held {s : State} (h : s.err ≠ .none) (effect : State → State) : command effect s = .next s := by
  simp [command, h]

/-- Everything a command can do: it answers a next state, its effect or no change. -/
theorem command_cases (effect : State → State) (s : State) :
    (s.err = .none ∧ command effect s = .next (effect s)) ∨ (s.err ≠ .none ∧ command effect s = .next s) := by
  by_cases h : s.err = .none
  · exact .inl ⟨h, command_of_clear h effect⟩
  · exact .inr ⟨h, command_of_held h effect⟩

/-- A command that answers a next state answered its effect or no change. -/
theorem command_next {effect : State → State} {s t : State} (h : command effect s = .next t) :
    (s.err = .none ∧ t = effect s) ∨ (s.err ≠ .none ∧ t = s) := by
  rcases command_cases effect s with ⟨he, hc⟩ | ⟨he, hc⟩ <;> rw [hc] at h <;> cases h
  · exact .inl ⟨he, rfl⟩
  · exact .inr ⟨he, rfl⟩

/-- The divider with a zero divisor raises DOMAIN (45_divide.md R213). -/
theorem dividing_zero {s : State} {rb : Reg} (h : val (s.getU rb) = 0) (effect : State → State) :
    dividing rb effect s = s.raise .domain := by
  simp [dividing, h]

/-- The divider with a divisor that is not zero has its effect. -/
theorem dividing_nonzero {s : State} {rb : Reg} (h : val (s.getU rb) ≠ 0) (effect : State → State) :
    dividing rb effect s = effect s := by
  simp [dividing, h]

/-- A register write changes that register only. -/
theorem setU_changesOnly (s : State) (r : Reg) (v : U128) (ds : List Reg) (h : r ∈ ds) :
    ChangesOnly ds s (s.setU r v) where
  regs r' hr := State.getU_setU_of_ne s r v r' fun e => hr (e ▸ h)
  err := rfl
  irqEn := rfl
  errCmd := rfl
  strLen := rfl
  strBytes _ := rfl
  busy := rfl
  pending := rfl
  rst := rfl
  host := rfl
  answer := rfl

/-- Frames compose. -/
theorem ChangesOnly.trans {ds : List Reg} {s t w : State} (h : ChangesOnly ds s t) (k : ChangesOnly ds t w) :
    ChangesOnly ds s w where
  regs r hr := (k.regs r hr).trans (h.regs r hr)
  err := k.err.trans h.err
  irqEn := k.irqEn.trans h.irqEn
  errCmd := k.errCmd.trans h.errCmd
  strLen := k.strLen.trans h.strLen
  strBytes i := (k.strBytes i).trans (h.strBytes i)
  busy := k.busy.trans h.busy
  pending := k.pending.trans h.pending
  rst := k.rst.trans h.rst
  host := k.host.trans h.host
  answer := k.answer.trans h.answer

/-- Storing a text changes the text only. -/
theorem storeText_changesOnlyText (s : State) (t : List Byte) : ChangesOnlyText s (s.storeText t) where
  regs _ := rfl
  err := rfl
  irqEn := rfl
  errCmd := rfl
  busy := rfl
  pending := rfl
  rst := rfl
  host := rfl
  answer := rfl

/-- The bytes of STRBUF after a text is stored (46_string.md R244). -/
theorem storeText_strByte (s : State) (t : List Byte) (i : Nat) : (s.storeText t).strByte i = t.getD i 0#8 := by
  simp [State.strByte, read_textBuf, Config.unwrittenByte]

/-- A two-register command writes its value to its destination. -/
@[simp] theorem unary_getU (f : U128 → U128) (rd ra : Reg) (s : State) : (unary f rd ra s).getU rd = f (s.getU ra) :=
  State.getU_setU_self ..

/-- A two-register command changes its destination only. -/
theorem unary_changesOnly (f : U128 → U128) (rd ra : Reg) (s : State) : ChangesOnly [rd] s (unary f rd ra s) :=
  setU_changesOnly s rd _ [rd] (List.mem_singleton_self rd)

/-- A three-register command writes its value to its destination. -/
@[simp] theorem binary_getU (f : U128 → U128 → U128) (rd ra rb : Reg) (s : State) :
    (binary f rd ra rb s).getU rd = f (s.getU ra) (s.getU rb) :=
  State.getU_setU_self ..

/-- A three-register command changes its destination only. -/
theorem binary_changesOnly (f : U128 → U128 → U128) (rd ra rb : Reg) (s : State) :
    ChangesOnly [rd] s (binary f rd ra rb s) :=
  setU_changesOnly s rd _ [rd] (List.mem_singleton_self rd)

end Sys2Proof.Machine
end

