-- ==== Sys2Proof/Laws/Exec.lean ====
section
/-! SUPPORT. What `exec` can do, said once: every command is some effect behind the check for a held error. Nothing
here depends on what an effect is. -/

namespace Sys2Proof.Machine

/-- Every command is an effect that is discarded while an error is held (60_exceptions.md R263). -/
theorem exec_is_command (i : Instr) : ∃ effect : State → State, ∀ s, exec i s = command effect s := by
  cases i <;> exact ⟨_, fun _ => rfl⟩

/-- With no error held, what holds of a command's effect holds of the completed command. -/
theorem completesWith_of_command {i : Instr} {s : State} {P : State → Prop} {effect : State → State}
    (he : exec i s = command effect s) (h : s.err = .none) (p : P (effect s)) : CompletesWith i s P :=
  ⟨_, he.trans (command_of_clear h effect), p⟩

end Sys2Proof.Machine
end

