-- ==== Sys2Proof/Laws/Word.lean ====
section
/-! SUPPORT. The small lemmas of the words: limbs of a pair, fields of a packed word. -/

namespace Sys2Proof

@[simp] theorem highLimb_ofLimbs (h l : Limb) : highLimb (ofLimbs h l) = h := by
  ext i hi
  simp [highLimb, ofLimbs, hi]
  grind

@[simp] theorem lowLimb_ofLimbs (h l : Limb) : lowLimb (ofLimbs h l) = l := by
  ext i hi
  simp [lowLimb, ofLimbs, hi]
  grind

@[simp] theorem ofLimbs_limbs (x : U128) : ofLimbs (highLimb x) (lowLimb x) = x := by
  ext i hi
  simp [highLimb, lowLimb, ofLimbs]
  grind

/-- The value of a pair of limbs (00_scope.md R8). -/
theorem val_ofLimbs (h l : Limb) : val (ofLimbs h l) = h.toNat * 2 ^ 64 + l.toNat := by
  have e : ofLimbs h l = (h ++ l : BitVec (64 + 64)) := by
    ext i hi
    simp only [ofLimbs]
    grind
  rw [val, e, BitVec.toNat_append, Nat.shiftLeft_eq, Nat.mul_comm, Nat.two_pow_add_eq_or_of_lt l.isLt]

@[simp] theorem val_trunc128 (n : Nat) : val (trunc128 n) = n % 2 ^ 128 := by simp [val, trunc128]

@[simp] theorem trunc128_val (x : U128) : trunc128 (val x) = x := by simp [val, trunc128]

/-- A value is below 2^128 (10_state.md R21). -/
theorem val_lt (x : U128) : val x < 2 ^ 128 := x.isLt

@[simp] theorem toReg_ofReg (r : Reg) : toReg (ofReg r) = r := rfl

@[simp] theorem ofReg_toReg (b : BitVec 3) : ofReg (toReg b) = b := rfl

@[simp] theorem toWidth_ofWidth (w : Width) : toWidth (ofWidth w) = some w := by cases w <;> rfl

section Fields

variable (op : BitVec 5) (rd ra rb rc : BitVec 3) (imm : BitVec 15)

@[simp] theorem opField_packWord : opField (packWord op rd ra rb rc imm) = op := by
  ext i hi
  simp [opField, packWord]
  grind

@[simp] theorem rdField_packWord : rdField (packWord op rd ra rb rc imm) = rd := by
  ext i hi
  simp [rdField, packWord]
  grind

@[simp] theorem raField_packWord : raField (packWord op rd ra rb rc imm) = ra := by
  ext i hi
  simp [raField, packWord]
  grind

@[simp] theorem rbField_packWord : rbField (packWord op rd ra rb rc imm) = rb := by
  ext i hi
  simp [rbField, packWord]
  grind

@[simp] theorem rcField_packWord : rcField (packWord op rd ra rb rc imm) = rc := by
  ext i hi
  simp [rcField, packWord]
  grind

@[simp] theorem immField_packWord : immField (packWord op rd ra rb rc imm) = imm := by
  ext i hi
  simp [immField, packWord]
  grind

end Fields

/-- Every word is its fields packed (30_encoding.md R81). -/
theorem packWord_fields (c : CmdWord) :
    packWord (opField c) (rdField c) (raField c) (rbField c) (rcField c) (immField c) = c := by
  ext i hi
  simp [packWord, opField, rdField, raField, rbField, rcField, immField]
  grind

end Sys2Proof
end

