-- ==== Sys2Proof/Laws/PerInstr.lean ====
section
/-! SUPPORT. Per-instruction families (LAWS.json). Opcode: the encoding of a command carries the opcode of its row of
30_encoding.md R86 in bits 31:27 and its register fields where R81 places them. -/

namespace Sys2Proof.Laws.Opcode

/-- The opcode, the RD and the RA field of a command (R82, R86); STR has no RD. -/
def row : Instr → BitVec 5 × BitVec 3 × BitVec 3
  | .cpy rd ra => (0x01#5, ofReg rd, ofReg ra)
  | .mvz rd ra => (0x02#5, ofReg rd, ofReg ra)
  | .widen rd ra _ _ => (0x03#5, ofReg rd, ofReg ra)
  | .narrow rd ra _ => (0x04#5, ofReg rd, ofReg ra)
  | .and rd ra _ => (0x05#5, ofReg rd, ofReg ra)
  | .or rd ra _ => (0x06#5, ofReg rd, ofReg ra)
  | .xor rd ra _ => (0x07#5, ofReg rd, ofReg ra)
  | .not rd ra => (0x08#5, ofReg rd, ofReg ra)
  | .shl rd ra _ => (0x09#5, ofReg rd, ofReg ra)
  | .shr rd ra _ => (0x0A#5, ofReg rd, ofReg ra)
  | .ceq rd ra _ | .cne rd ra _ | .clt rd ra _ | .cgt rd ra _ | .cle rd ra _ | .cge rd ra _ =>
    (0x0B#5, ofReg rd, ofReg ra)
  | .add rd ra _ => (0x0C#5, ofReg rd, ofReg ra)
  | .sub rd ra _ => (0x0D#5, ofReg rd, ofReg ra)
  | .neg rd ra => (0x0E#5, ofReg rd, ofReg ra)
  | .inc rd ra => (0x0F#5, ofReg rd, ofReg ra)
  | .dec rd ra => (0x10#5, ofReg rd, ofReg ra)
  | .mul rd ra _ => (0x11#5, ofReg rd, ofReg ra)
  | .div rd ra _ => (0x12#5, ofReg rd, ofReg ra)
  | .mod rd ra _ => (0x13#5, ofReg rd, ofReg ra)
  | .divmod rq _ ra _ => (0x14#5, ofReg rq, ofReg ra)
  | .bitlen rd ra => (0x15#5, ofReg rd, ofReg ra)
  | .str ra _ _ => (0x16#5, 0#3, ofReg ra)

/-- The opcode and the first two register fields stand where R81 places them. -/
def Statement (i : Instr) : Prop := (opField (encode i), rdField (encode i), raField (encode i)) = row i

/-- The first three fields of a packed word. -/
theorem fields_packWord (op : BitVec 5) (rd ra rb rc : BitVec 3) (imm : BitVec 15) :
    (opField (packWord op rd ra rb rc imm), rdField (packWord op rd ra rb rc imm),
      raField (packWord op rd ra rb rc imm)) = (op, rd, ra) := by
  rw [opField_packWord, rdField_packWord, raField_packWord]

theorem cpy (rd ra : Reg) : Statement (.cpy rd ra) := fields_packWord ..
theorem mvz (rd ra : Reg) : Statement (.mvz rd ra) := fields_packWord ..
theorem widen (rd ra : Reg) (signed : Bool) (w : Width) : Statement (.widen rd ra signed w) := fields_packWord ..
theorem narrow (rd ra : Reg) (w : Width) : Statement (.narrow rd ra w) := fields_packWord ..
theorem and (rd ra rb : Reg) : Statement (.and rd ra rb) := fields_packWord ..
theorem or (rd ra rb : Reg) : Statement (.or rd ra rb) := fields_packWord ..
theorem xor (rd ra rb : Reg) : Statement (.xor rd ra rb) := fields_packWord ..
theorem not (rd ra : Reg) : Statement (.not rd ra) := fields_packWord ..
theorem shl (rd ra rb : Reg) : Statement (.shl rd ra rb) := fields_packWord ..
theorem shr (rd ra rb : Reg) : Statement (.shr rd ra rb) := fields_packWord ..
theorem ceq (rd ra rb : Reg) : Statement (.ceq rd ra rb) := fields_packWord ..
theorem cne (rd ra rb : Reg) : Statement (.cne rd ra rb) := fields_packWord ..
theorem clt (rd ra rb : Reg) : Statement (.clt rd ra rb) := fields_packWord ..
theorem cgt (rd ra rb : Reg) : Statement (.cgt rd ra rb) := fields_packWord ..
theorem cle (rd ra rb : Reg) : Statement (.cle rd ra rb) := fields_packWord ..
theorem cge (rd ra rb : Reg) : Statement (.cge rd ra rb) := fields_packWord ..
theorem add (rd ra rb : Reg) : Statement (.add rd ra rb) := fields_packWord ..
theorem sub (rd ra rb : Reg) : Statement (.sub rd ra rb) := fields_packWord ..
theorem neg (rd ra : Reg) : Statement (.neg rd ra) := fields_packWord ..
theorem inc (rd ra : Reg) : Statement (.inc rd ra) := fields_packWord ..
theorem dec (rd ra : Reg) : Statement (.dec rd ra) := fields_packWord ..
theorem mul (rd ra rb : Reg) : Statement (.mul rd ra rb) := fields_packWord ..
theorem div (rd ra rb : Reg) : Statement (.div rd ra rb) := fields_packWord ..
theorem mod (rd ra rb : Reg) : Statement (.mod rd ra rb) := fields_packWord ..
theorem divmod (rq rr ra rb : Reg) : Statement (.divmod rq rr ra rb) := fields_packWord ..
theorem bitlen (rd ra : Reg) : Statement (.bitlen rd ra) := fields_packWord ..
theorem str (ra : Reg) (base : BitVec 5) (minlen : BitVec 8) : Statement (.str ra base minlen) := fields_packWord ..

end Sys2Proof.Laws.Opcode
end

