-- ==== Sys2Proof/Laws/Sequencer.lean ====
section
/-! SUPPORT. What a step can do: one lemma per kind of step, and the bus locations of the register window. -/

namespace Sys2Proof.Machine

/-- A step with a command in flight completes it. -/
theorem step_inFlight {s : State} (h : InFlight s) : step s = complete s := by
  obtain ⟨hb, hr, hh⟩ := h
  unfold step advance
  split
  · next level rest he => exact absurd (by simp [he]) (hh level)
  · simp [hb, hr]
  · simp [hb]
  · simp [hb]

/-- What a completion answers, where the word's effect answers a next state. -/
theorem complete_of_next {s t : State} (h : completeWord s.pending s = .next t) :
    complete s = .next { t with busy := false, answer := some .okay } := by
  simp [complete, h]

/-- Everything a completion that answers a next state does. -/
theorem complete_next {s v : State} (h : complete s = .next v) :
    ∃ t, completeWord s.pending s = .next t ∧ v = { t with busy := false, answer := some .okay } := by
  unfold complete at h
  split at h
  · next t ht => cases h; exact ⟨t, ht, rfl⟩
  · cases h
  · cases h

/-- After a completion BUSY is 0 and the CMD write has its answer. -/
theorem complete_answers {s v : State} (h : complete s = .next v) : v.busy = false ∧ v.answer = some .okay := by
  obtain ⟨t, -, rfl⟩ := complete_next h
  exact ⟨rfl, rfl⟩

/-- The answer after an access: none just when a command was accepted. -/
theorem performAccess_answer (a : BusAccess) (s : State) :
    (performAccess a s).answer = if (performAccess a s).busy then none else some (busAccess s a).1 := rfl

/-- An access leaves the block busy just when it leaves the access unanswered. -/
theorem performAccess_unanswered (a : BusAccess) (s : State) :
    (performAccess a s).answer = none ↔ (performAccess a s).busy = true := by
  rw [performAccess_answer]; split <;> simp [*]

/-- A run has ended just when no access is left and nothing is in flight. -/
theorem runEnded_iff (s : State) : runEnded s = true ↔ s.host.any HostEvent.isAccess = false ∧ s.busy = false := by
  simp [runEnded]

/-- A step whose next move is an access performs it, where nothing is in flight and `rst` is released. -/
theorem step_access {a : BusAccess} {rest : List HostEvent} {s : State} (h : Accessing a rest s) :
    step s = .next (performAccess a { s with host := rest }) := by
  simp [step, advance, h.1, h.2.1, h.2.2]

/-- A step whose next move is on `rst` drives it. -/
theorem step_rst {level : Bool} {rest : List HostEvent} {s : State} (h : s.host = .rst level :: rest) :
    step s = .next (driveReset level { s with host := rest }) := by
  simp [step, advance, h]

/-- Everything a step can do: it drives `rst`, stops at an access during reset, completes the command in flight,
performs an access, passes a wait, or holds the state. -/
theorem step_cases (s : State) :
    (∃ level rest, s.host = .rst level :: rest ∧ step s = .next (driveReset level { s with host := rest })) ∨
    (∃ a rest, s.host = .access a :: rest ∧ s.rst = true ∧ step s = .fault .accessDuringReset) ∨
    (s.busy = true ∧ step s = complete s) ∨
    (∃ a rest, Accessing a rest s ∧ step s = .next (performAccess a { s with host := rest })) ∨
    (∃ rest, s.host = .idle :: rest ∧ s.busy = false ∧ step s = .next { s with host := rest }) ∨
    (s.host = [] ∧ s.busy = false ∧ step s = .next s) := by
  unfold step advance
  split
  · next level rest he => exact .inl ⟨level, rest, he, rfl⟩
  · next a rest he =>
    cases hr : s.rst
    · cases hb : s.busy
      · exact .inr (.inr (.inr (.inl ⟨a, rest, ⟨he, hr, hb⟩, by simp⟩)))
      · exact .inr (.inr (.inl ⟨rfl, by simp⟩))
    · exact .inr (.inl ⟨a, rest, he, rfl, by simp⟩)
  · next rest he =>
    cases hb : s.busy
    · exact .inr (.inr (.inr (.inr (.inl ⟨rest, he, rfl, by simp⟩))))
    · exact .inr (.inr (.inl ⟨rfl, by simp⟩))
  · next he =>
    cases hb : s.busy
    · exact .inr (.inr (.inr (.inr (.inr ⟨he, rfl, by simp⟩))))
    · exact .inr (.inr (.inl ⟨rfl, by simp⟩))

/-- A word placed for the next step is in flight. -/
theorem placeWord_inFlight (c : CmdWord) (s : State) : InFlight (placeWord c s) :=
  ⟨rfl, rfl, by simp [placeWord]⟩

/-! ## The register map (20_memory.md R54), offset by offset -/

theorem busLocation_low : ∀ n : Reg, busLocation (BitVec.ofNat 12 (0x10 * n)) 8 = some (.low n) := by decide
theorem busLocation_high : ∀ n : Reg, busLocation (BitVec.ofNat 12 (0x10 * n + 8)) 8 = some (.high n) := by decide
theorem busLocation_cmd : busLocation 0x080#12 8 = some .cmd := by decide
theorem busLocation_status : busLocation 0x088#12 8 = some .status := by decide
theorem busLocation_ctrl : busLocation 0x090#12 8 = some .ctrl := by decide
theorem busLocation_errCmd : busLocation 0x098#12 8 = some .errCmd := by decide
theorem busLocation_strLen : busLocation 0x0A0#12 8 = some .strLen := by decide
theorem busLocation_strBuf : ∀ k : Fin 32, busLocation (BitVec.ofNat 12 (0x100 + 8 * k)) 8 = some (.strBuf k) := by
  decide

/-- The offsets of the end state, one by one (70_reset_and_hazards.md R300). -/
theorem mem_readableOffsets (a : Offset) :
    a ∈ readableOffsets ↔
      (∃ n : Reg, BitVec.ofNat 12 (0x10 * n) = a) ∨ (∃ n : Reg, BitVec.ofNat 12 (0x10 * n + 8) = a) ∨
      a = 0x088#12 ∨ a = 0x090#12 ∨ a = 0x098#12 ∨ a = 0x0A0#12 ∨
      ∃ k : Fin 32, BitVec.ofNat 12 (0x100 + 8 * k) = a := by
  simp only [readableOffsets, List.mem_append, List.mem_map, List.mem_finRange, true_and, List.mem_cons, List.not_mem_nil,
    or_false, or_assoc]

/-- Every offset of the end state is a mapped location. -/
theorem readable_location {a : Offset} (h : a ∈ readableOffsets) : ∃ l, busLocation a 8 = some l := by
  obtain ⟨n, rfl⟩ | ⟨n, rfl⟩ | rfl | rfl | rfl | rfl | ⟨k, rfl⟩ := (mem_readableOffsets a).1 h
  · exact ⟨_, busLocation_low n⟩
  · exact ⟨_, busLocation_high n⟩
  · exact ⟨_, busLocation_status⟩
  · exact ⟨_, busLocation_ctrl⟩
  · exact ⟨_, busLocation_errCmd⟩
  · exact ⟨_, busLocation_strLen⟩
  · exact ⟨_, busLocation_strBuf k⟩

end Sys2Proof.Machine
end

