-- ==== Sys2Proof/Tests/Slice0.lean ====
section
/-! SUPPORT. The model's own tests: words written out from 30_encoding.md, the vectors of 95_test_vectors.md by their
ids, and a witness for the hypotheses of every obligation that has some. -/

namespace Sys2Proof.Tests

open Sys2Proof.Machine

/-- The start state of a vector: reset, with registers loaded (95_test_vectors.md, head). -/
def start (l : List (Reg × U128)) : State := l.foldl (fun s p => s.setU p.1 p.2) State.reset

/-- The outcome of the step that runs a word. -/
def ran (w : Nat) (l : List (Reg × U128)) : Host.Outcome State Fault Refusal := step ((start l).withFetchWord 32 w)

/-- One thing read off the next state. -/
def look {α : Type} (o : Host.Outcome State Fault Refusal) (f : State → α) : Option α :=
  match o with
  | .next t => some (f t)
  | .fault _ => none
  | .refused _ => none

/-- A register after the step. -/
def reg (o : Host.Outcome State Fault Refusal) (r : Reg) : Option U128 := look o fun t => t.getU r

/-- ERR and ERRCMD after the step. -/
def err (o : Host.Outcome State Fault Refusal) : Option (ErrCode × CmdWord) := look o fun t => (t.err, t.errCmd)

/-- STRLEN and the first bytes of STRBUF after the step. -/
def text (o : Host.Outcome State Fault Refusal) (n : Nat) : Option (BitVec 8 × List Byte) :=
  look o fun t => (t.strLen, (List.range n).map t.strByte)

/-- A state with an error held. -/
def failed (code : ErrCode) (s : State) : State := { s with err := code, errCmd := 0x92040000#32 }

/-- A state whose host makes moves next. -/
def asked (moves : List HostEvent) (s : State) : State := { s with host := moves }

/-- A state with a command word in flight. -/
def inFlight (w : CmdWord) (s : State) : State := { s with busy := true, pending := w }

/-! ## Well-formedness -/

theorem test_widen_signed_bool_is_ill_formed : (Instr.widen 0 1 true .bool).wellFormed = false := by decide
theorem test_divmod_same_destination_is_ill_formed : (Instr.divmod 2 2 0 1).wellFormed = false := by decide
theorem test_well_formed_neighbours :
    (Instr.widen 0 1 false .bool).wellFormed = true ∧ (Instr.widen 0 1 true .w64).wellFormed = true ∧
    (Instr.divmod 2 3 0 1).wellFormed = true := by decide

/-! ## Decoding: a word of every command, from the fields of R81 and the rows of R86 -/

theorem test_decode_convert :
    decode 0x08200000#32 = .ok (.cpy 0 1) ∧ decode 0x12600000#32 = .ok (.mvz 2 3) ∧
    decode 0x1820000A#32 = .ok (.widen 0 1 true .w16) ∧ decode 0x20200004#32 = .ok (.narrow 0 1 .w64) := by decide
theorem test_decode_bitwise :
    decode 0x2A040000#32 = .ok (.and 2 0 1) ∧ decode 0x32040000#32 = .ok (.or 2 0 1) ∧
    decode 0x3A040000#32 = .ok (.xor 2 0 1) ∧ decode 0x41000000#32 = .ok (.not 1 0) := by decide
theorem test_decode_shift :
    decode 0x4A040000#32 = .ok (.shl 2 0 1) ∧ decode 0x53040000#32 = .ok (.shr 3 0 1) := by decide
theorem test_decode_compare :
    decode 0x5A040000#32 = .ok (.ceq 2 0 1) ∧ decode 0x5A040001#32 = .ok (.cne 2 0 1) ∧
    decode 0x5A040002#32 = .ok (.clt 2 0 1) ∧ decode 0x59040003#32 = .ok (.cgt 1 0 1) ∧
    decode 0x5E340004#32 = .ok (.cle 6 1 5) ∧ decode 0x58000005#32 = .ok (.cge 0 0 0) := by decide
theorem test_decode_arith :
    decode 0x621C0000#32 = .ok (.add 2 0 7) ∧ decode 0x6A040000#32 = .ok (.sub 2 0 1) ∧
    decode 0x71000000#32 = .ok (.neg 1 0) ∧ decode 0x79200000#32 = .ok (.inc 1 1) ∧
    decode 0x81000000#32 = .ok (.dec 1 0) ∧ decode 0x8C440000#32 = .ok (.mul 4 2 1) := by decide
theorem test_decode_divide :
    decode 0x92040000#32 = .ok (.div 2 0 1) ∧ decode 0x9B040000#32 = .ok (.mod 3 0 1) ∧
    decode 0xA2058000#32 = .ok (.divmod 2 3 0 1) ∧ decode 0xA9000000#32 = .ok (.bitlen 1 0) := by decide
theorem test_decode_string :
    decode 0xB0E010FF#32 = .ok (.str 7 16 255) ∧ decode 0xB0001F00#32 = .ok (.str 0 31 0) := by decide

/-- D-01 to D-15 and D-23, with the case of R88 each names. -/
theorem test_decode_illegal :
    decode 0x00000000#32 = .error .reservedOpcode ∧ decode 0xB8000000#32 = .error .reservedOpcode ∧
    decode 0xF8000000#32 = .error .reservedOpcode ∧ decode 0x62040001#32 = .error .mustBeZero ∧
    decode 0x62048000#32 = .error .mustBeZero ∧ decode 0x08240000#32 = .error .mustBeZero ∧
    decode 0x58000006#32 = .error .reservedCondition ∧ decode 0x58000007#32 = .error .reservedCondition ∧
    decode 0x18200005#32 = .error .reservedWidth ∧ decode 0x20200007#32 = .error .reservedWidth ∧
    decode 0x18200008#32 = .error .signedBool ∧ decode 0x2020000B#32 = .error .mustBeZero ∧
    decode 0xA2050000#32 = .error .sameDestination ∧ decode 0xB1001004#32 = .error .mustBeZero ∧
    decode 0xB0004004#32 = .error .mustBeZero ∧ decode 0xFFFFFFFF#32 = .error .reservedOpcode := by decide

/-- Words of every format, built from the syntax: D-16, D-18, CM-12, DV-15, D-22. -/
theorem test_encode :
    encode (.widen 0 1 true .w8) = 0x18200009#32 ∧ encode (.narrow 0 1 .w64) = 0x20200004#32 ∧
    encode (.cgt 1 0 1) = 0x59040003#32 ∧ encode (.divmod 0 1 0 1) = 0xA0048000#32 ∧
    encode (.str 7 16 255) = 0xB0E010FF#32 := by decide

/-! ## Convert: CV -/

/-- CV-01. -/
theorem test_cpy : reg (ran 0x08200000 [(1, 0x10000000000000002)]) 0 = some 0x10000000000000002 := by decide
/-- CV-03. -/
theorem test_mvz :
    reg (ran 0x12600000 [(3, 0x50000000000000006)]) 2 = some 0x50000000000000006 ∧
    reg (ran 0x12600000 [(3, 0x50000000000000006)]) 3 = some 0 := by decide
/-- CV-04. -/
theorem test_mvz_self :
    reg (ran 0x13600000 [(3, 0x0123456789ABCDEFFEDCBA9876543210)]) 3 = some 0x0123456789ABCDEFFEDCBA9876543210 := by
  decide
/-- CV-08. -/
theorem test_widen_signed : reg (ran 0x1820000A [(1, 0xABCDFFFFFFFF8000)]) 0 = some 0xFFFFFFFFFFFF8000 := by decide
/-- CV-11. -/
theorem test_widen_unsigned : reg (ran 0x18200003 [(1, 0x100000000FFFFFFFF)]) 0 = some 0xFFFFFFFF := by decide
/-- CV-16. -/
theorem test_narrow_bool : reg (ran 0x20200000 [(1, 0x10000000000000000)]) 0 = some 1 := by decide
/-- CV-19. -/
theorem test_narrow_u16 : reg (ran 0x20200002 [(1, 0xAB123456789ABCDEF0)]) 0 = some 0xDEF0 := by decide

/-! ## Bitwise: BW -/

/-- The operands A and B of section 2.3. -/
def bits : List (Reg × U128) :=
  [(0, 0xFF00FF00FF00FF000F0F0F0F0F0F0F0F), (1, 0xFFFFFFFF0000000000000000FFFFFFFF)]

/-- BW-01. -/
theorem test_and : reg (ran 0x2A040000 bits) 2 = some 0xFF00FF0000000000000000000F0F0F0F := by decide
/-- BW-02. -/
theorem test_or : reg (ran 0x32040000 bits) 2 = some 0xFFFFFFFFFF00FF000F0F0F0FFFFFFFFF := by decide
/-- BW-09, the destination a source. -/
theorem test_xor : reg (ran 0x38040000 bits) 0 = some 0x00FF00FFFF00FF000F0F0F0FF0F0F0F0 := by decide
/-- BW-04. -/
theorem test_not : reg (ran 0x41000000 bits) 1 = some 0x00FF00FF00FF00FFF0F0F0F0F0F0F0F0 := by decide

/-! ## Shifts: SH -/

/-- X of section 2.4 in U0 and an amount in U1. -/
def shifted (n : U128) : List (Reg × U128) := [(0, 0x0123456789ABCDEFFEDCBA9876543210), (1, n)]

/-- SH-06. -/
theorem test_shl : reg (ran 0x4A040000 (shifted 0x41)) 2 = some 0xFDB97530ECA864200000000000000000 := by decide
/-- SH-12: the amount is 2^64 + 3. -/
theorem test_shl_high_amount : reg (ran 0x4A040000 (shifted 0x10000000000000003)) 2 = some 0 := by decide
/-- SH-03. -/
theorem test_shr : reg (ran 0x53040000 (shifted 4)) 3 = some 0x00123456789ABCDEFFEDCBA987654321 := by decide
/-- SH-16: no sign fill. -/
theorem test_shr_top :
    reg (ran 0x52040000 [(0, 0x80000000000000000000000000000000), (1, 0x7F)]) 2 = some 1 := by decide

/-! ## Comparisons: CM -/

/-- The operands of CM-02, CM-06 and CM-03. -/
def low : List (Reg × U128) := [(0, 0xFFFFFFFFFFFFFFFF), (1, 0x10000000000000000)]
def top : List (Reg × U128) := [(0, 0xFFFFFFFFFFFFFFFFFFFFFFFFFFFFFFFF)]
def same : List (Reg × U128) := [(0, 0x0123456789ABCDEFFEDCBA9876543210), (1, 0x0123456789ABCDEFFEDCBA9876543210)]

theorem test_ceq : reg (ran 0x5A040000 same) 2 = some 1 ∧ reg (ran 0x5A040000 low) 2 = some 0 := by decide
theorem test_cne : reg (ran 0x5A040001 same) 2 = some 0 ∧ reg (ran 0x5A040001 low) 2 = some 1 := by decide
theorem test_clt : reg (ran 0x5A040002 low) 2 = some 1 ∧ reg (ran 0x5A040002 top) 2 = some 0 := by decide
theorem test_cgt : reg (ran 0x5A040003 low) 2 = some 0 ∧ reg (ran 0x5A040003 top) 2 = some 1 := by decide
theorem test_cle : reg (ran 0x5A040004 same) 2 = some 1 ∧ reg (ran 0x5A040004 top) 2 = some 0 := by decide
theorem test_cge : reg (ran 0x5A040005 same) 2 = some 1 ∧ reg (ran 0x5A040005 low) 2 = some 0 := by decide

/-! ## Arithmetic: AR -/

/-- AR-01. -/
theorem test_add_carry : reg (ran 0x62040000 [(0, 0xFFFFFFFFFFFFFFFF), (1, 1)]) 2 = some 0x10000000000000000 := by
  decide
/-- AR-02. -/
theorem test_add_wraps : reg (ran 0x62040000 [(0, 0xFFFFFFFFFFFFFFFFFFFFFFFFFFFFFFFF), (1, 1)]) 2 = some 0 := by
  decide
/-- AR-09. -/
theorem test_sub_borrow :
    reg (ran 0x6A040000 [(0, 5), (1, 0x20000000000000007)]) 2 = some 0xFFFFFFFFFFFFFFFDFFFFFFFFFFFFFFFE := by decide
/-- AR-07. -/
theorem test_sub_wraps : reg (ran 0x6A040000 [(1, 1)]) 2 = some 0xFFFFFFFFFFFFFFFFFFFFFFFFFFFFFFFF := by decide
/-- AR-13. -/
theorem test_neg :
    reg (ran 0x71000000 [(0, 0x0123456789ABCDEFFEDCBA9876543210)]) 1 = some 0xFEDCBA98765432100123456789ABCDF0 := by
  decide
/-- AR-15. -/
theorem test_inc : reg (ran 0x79000000 [(0, 0xFFFFFFFFFFFFFFFF)]) 1 = some 0x10000000000000000 := by decide
/-- AR-16. -/
theorem test_dec : reg (ran 0x80000000 []) 0 = some 0xFFFFFFFFFFFFFFFFFFFFFFFFFFFFFFFF := by decide
/-- AR-18. -/
theorem test_mul :
    reg (ran 0x8A040000 [(0, 0x0123456789ABCDEFFEDCBA9876543210), (1, 0x0123456789ABCDEFFEDCBA9876543210)]) 2 =
      some 0x422871B7939F74ACDEEC6CD7A44A4100 := by decide
/-- AR-22. -/
theorem test_mul_crossing :
    reg (ran 0x8A040000 [(0, 0xFFFFFFFF), (1, 0xFFFFFFFF0000000000000000)]) 2 =
      some 0xFFFFFFFE000000010000000000000000 := by decide

/-! ## Divider: DV -/

/-- DV-10. -/
theorem test_div : reg (ran 0x92040000 [(0, 0x64), (1, 7)]) 2 = some 0xE := by decide
/-- DV-12. -/
theorem test_div_zero : err (ran 0x92040000 [(0, 5)]) = some (.domain, 0x92040000#32) := by decide
/-- DV-11. -/
theorem test_mod : reg (ran 0x9B040000 [(0, 0x64), (1, 7)]) 3 = some 2 := by decide
/-- DV-13. -/
theorem test_mod_zero : err (ran 0x9A040000 [(0, 5)]) = some (.domain, 0x9A040000#32) := by decide
/-- DV-03. -/
theorem test_divmod :
    reg (ran 0xA2058000 [(0, 0xFFFFFFFFFFFFFFFFFFFFFFFFFFFFFFFF), (1, 0x80000000000000000000000000000001)]) 3 =
      some 0x7FFFFFFFFFFFFFFFFFFFFFFFFFFFFFFE := by decide
/-- DV-15, the destinations the sources. -/
theorem test_divmod_in_place :
    reg (ran 0xA0048000 [(0, 0x64), (1, 7)]) 0 = some 0xE ∧ reg (ran 0xA0048000 [(0, 0x64), (1, 7)]) 1 = some 2 := by
  decide
/-- DV-22. -/
theorem test_bitlen : reg (ran 0xA9000000 [(0, 0x10000000000000000)]) 1 = some 0x41 := by decide
/-- DV-19. -/
theorem test_bitlen_zero : reg (ran 0xA9000000 []) 1 = some 0 := by decide

/-! ## String: ST -/

/-- ST-05. -/
theorem test_str_padded : text (ran 0xB0001004 [(0, 0xFF)]) 5 = some (4#8, [0x30, 0x30, 0x66, 0x66, 0x00]) := by decide
/-- ST-08. -/
theorem test_str_decimal :
    text (ran 0xB0000A00 [(0, 0x10000000000000000)]) 21 = some (20#8,
      [0x31, 0x38, 0x34, 0x34, 0x36, 0x37, 0x34, 0x34, 0x30, 0x37,
       0x33, 0x37, 0x30, 0x39, 0x35, 0x35, 0x31, 0x36, 0x31, 0x36, 0x00]) := by decide
/-- ST-18: nothing rendered. -/
theorem test_str_bad_base :
    err (ran 0xB0000100 [(0, 5)]) = some (.invalidArg, 0xB0000100#32) ∧
    text (ran 0xB0000100 [(0, 5)]) 1 = some (0#8, [0x00]) := by decide

/-! ## Bus, errors, reset: EB -/

/-- EB-02 to EB-06, EB-07: no location. -/
theorem test_unmapped :
    busLocation 0x004#12 8 = none ∧ busLocation 0x0A8#12 8 = none ∧ busLocation 0x0F8#12 8 = none ∧
    busLocation 0x200#12 8 = none ∧ busLocation 0xFF8#12 8 = none ∧ busLocation 0x088#12 4 = none := by decide
/-- The edges of the mapped rows (20_memory.md R54). -/
theorem test_mapped_edges :
    busLocation 0x000#12 8 = some (.low 0) ∧ busLocation 0x078#12 8 = some (.high 7) ∧
    busLocation 0x080#12 8 = some .cmd ∧ busLocation 0x0A0#12 8 = some .strLen ∧
    busLocation 0x100#12 8 = some (.strBuf 0) ∧ busLocation 0x1F8#12 8 = some (.strBuf 31) := by decide
/-- EB-11, its acceptance: the upper 32 bits are ignored, and the write is not answered yet. -/
theorem test_cmd_write :
    look (step (asked [.access (.write 0x080#12 8 0xFFFFFFFF62040000#64)] State.reset))
      (fun t => (t.busy, t.pending, t.answer)) = some (true, 0x62040000#32, none) := by decide
/-- EB-11, its completion: ADD has run, BUSY is 0 and the write is answered (R300). -/
theorem test_cmd_completes :
    look (step (inFlight 0x62040000#32 (start [(0, 2), (1, 3)]))) (fun t => (t.getU 2, t.busy, t.answer, runEnded t)) =
      some (5, false, some .okay, true) := by decide
/-- EB-12: a command issued while DOMAIN is held is discarded. -/
theorem test_held_error_discards :
    look (step (asked [.access (.write 0x080#12 8 0x63000000#64)] (failed .domain (start [(0, 5)]))))
      (fun t => (t.busy, t.err, t.getU 3, t.answer)) = some (false, .domain, 0, some .okay) := by decide
/-- EB-13. -/
theorem test_irq_rises :
    look (step (asked [.access (.write 0x090#12 8 1#64)] (failed .domain State.reset))) State.irq = some true := by decide
/-- EB-14: any value clears, and ERRCMD stays. -/
theorem test_clear_error :
    look (step (asked [.access (.write 0x088#12 8 0xDEAD#64)] (failed .domain State.reset)))
      (fun t => (t.err, t.errCmd, t.irq)) = some (.none, 0x92040000#32, false) := by decide
/-- EB-15. -/
theorem test_illegal_word : err (ran 0x58000006 []) = some (.illegal, 0x58000006#32) := by decide
/-- The STRBUF readout after ST-08, its first and last word with text (R58). -/
theorem test_strbuf_readout :
    look (ran 0xB0000A00 [(0, 0x10000000000000000)]) (fun t => (strWord t 0, strWord t 2)) =
      some (0x3434373634343831#64, 0x0000000036313631#64) := by decide
/-- EB-17, the assertion. -/
theorem test_reset_clears :
    look (step (asked [.rst true] (failed .invalidArg { start [(0, 9)] with irqEn := true })))
      (fun t => (t.getU 0, t.err, t.irqEn, t.irq)) = some (0, .none, false, false) := by decide
/-- Log 19: a last CMD write that `rst` cuts off is never answered, and the run has ended. -/
theorem test_reset_ends_run :
    look (step (asked [.rst true] (inFlight 0x62040000#32 State.reset))) (fun t => (t.answer, t.busy, runEnded t)) =
      some (none, false, true) := by decide
/-- R291: no response is defined for an access during reset. -/
theorem test_access_during_reset :
    step (asked [.access (.read 0x088#12 8)] { State.reset with rst := true }) = .fault .accessDuringReset := rfl

/-! ## Witnesses: a state and operands that meet the hypotheses of an obligation, together -/

theorem witness_decodeOfEncode :
    (Instr.widen 7 3 true .w32).wellFormed = true ∧ (Instr.divmod 0 7 0 7).wellFormed = true := by decide
theorem witness_decodedWordReencodes : decode 0xB0E010FF#32 = .ok (.str 7 16 255) := by decide
theorem witness_stepRunsDecodedCommand :
    let s := (start [(0, 3)]).withFetchWord 32 0x48000000
    InFlight s ∧ decode s.pending = .ok (.shl 0 0 0) :=
  ⟨⟨rfl, rfl, by decide⟩, by decide⟩
theorem witness_illegalWordRaisesOnStep :
    let s := inFlight 0x62040001#32 State.reset
    InFlight s ∧ s.err = .none ∧ decode s.pending = .error .mustBeZero :=
  ⟨⟨rfl, rfl, by decide⟩, rfl, by decide⟩
theorem witness_commandWriteAcceptsOrDiscards :
    let w := BusAccess.write 0x080#12 8 0x62040000#64
    InFlight (inFlight 0x62040000#32 State.reset) ∧
    (Accessing w [] (asked [.access w] State.reset) ∧ (asked [.access w] State.reset).err = .none) ∧
    (Accessing w [] (asked [.access w] (failed .illegal State.reset)) ∧
      (asked [.access w] (failed .illegal State.reset)).err ≠ .none) ∧
    Accessing (.read 0x080#12 8) [] (asked [.access (.read 0x080#12 8)] State.reset) :=
  ⟨⟨rfl, rfl, by decide⟩, ⟨⟨rfl, rfl, rfl⟩, rfl⟩, ⟨⟨rfl, rfl, rfl⟩, by decide⟩, ⟨rfl, rfl, rfl⟩⟩
theorem witness_heldErrorDiscardsCommands :
    let s := failed .domain (inFlight 0x62040000#32 State.reset)
    s.err ≠ .none ∧ InFlight s :=
  ⟨by decide, rfl, rfl, by decide⟩
theorem witness_interlockHoldsAccess :
    let s := asked [.access (.read 0x020#12 8)] (inFlight 0x62040000#32 State.reset)
    s.busy = true ∧ s.rst = false ∧ s.host = .access (.read 0x020#12 8) :: [] := ⟨rfl, rfl, rfl⟩
theorem witness_resetTakesEffectAtOnce :
    (asked [.rst true] (inFlight 0x62040000#32 State.reset)).host = .rst true :: [] ∧
    (asked [.rst false] { State.reset with rst := true }).host = .rst false :: [] ∧
    (asked [.rst false] { State.reset with rst := true }).rst = true := ⟨rfl, rfl, rfl⟩
theorem witness_onlyAccessDuringResetStops :
    let s := asked [.access (.read 0x000#12 8)] { State.reset with rst := true }
    s.rst = true ∧ ∃ a rest, s.host = .access a :: rest := ⟨rfl, _, _, rfl⟩
theorem witness_idleBlockHoldsItsState :
    State.reset.busy = false ∧ State.reset.host = [] ∧
    (asked [.idle] State.reset).busy = false ∧ (asked [.idle] State.reset).host = .idle :: [] := ⟨rfl, rfl, rfl, rfl⟩
/-- A script ending in a command (P4 of 95_test_vectors.md ends so), and one ending in a read. -/
theorem witness_runEndsWithLastAnswer :
    let w := BusAccess.write 0x080#12 8 0x16A00000#64
    let r := BusAccess.read 0x088#12 8
    (Accessing w [.idle] (asked [.access w, .idle] State.reset) ∧ [HostEvent.idle].any HostEvent.isAccess = false ∧
      (∀ level, [HostEvent.idle].head? ≠ some (.rst level)) ∧
      look (step (asked [.access w, .idle] State.reset)) (fun t => (t.answer, t.busy, runEnded t)) =
        some (none, true, false)) ∧
    (Accessing r [] (asked [.access r] State.reset) ∧
      look (step (asked [.access r] State.reset)) (fun t => (t.answer, t.busy, runEnded t)) =
        some (some (.data 0#64), false, true)) :=
  ⟨⟨⟨rfl, rfl, rfl⟩, rfl, by decide, by decide⟩, ⟨rfl, rfl, rfl⟩, by decide⟩
/-- The first and the last offset of each part of the end state. -/
theorem witness_endStateIsReadable :
    0x000#12 ∈ readableOffsets ∧ 0x078#12 ∈ readableOffsets ∧ 0x088#12 ∈ readableOffsets ∧ 0x0A0#12 ∈ readableOffsets ∧
    0x100#12 ∈ readableOffsets ∧ 0x1F8#12 ∈ readableOffsets ∧ 0x080#12 ∉ readableOffsets := by decide
/-- Every error code, so that each reading of STATUS has its state. -/
theorem witness_registerImages :
    State.reset.err = .none ∧ (failed .domain State.reset).err = .domain ∧
    (failed .invalidArg State.reset).err = .invalidArg ∧ (failed .illegal State.reset).err = .illegal :=
  ⟨rfl, rfl, rfl, rfl⟩
theorem witness_strbufWordsAreLittleEndian : (0 : Nat) < 8 ∧ (7 : Nat) < 8 := by decide
/-- Both sides of every boundary of a legal access. -/
theorem witness_legalAccess :
    LegalAccess 0x000#12 8 ∧ LegalAccess 0x0A0#12 8 ∧ LegalAccess 0x100#12 8 ∧ LegalAccess 0x1F8#12 8 ∧
    ¬LegalAccess 0x0A8#12 8 ∧ ¬LegalAccess 0x0F8#12 8 ∧ ¬LegalAccess 0x200#12 8 ∧ ¬LegalAccess 0x004#12 8 ∧
    ¬LegalAccess 0x000#12 4 := by
  unfold LegalAccess; decide
theorem witness_illegalAccessesChangeNothing :
    let a := BusAccess.write 0x0A8#12 8 1#64
    let b := BusAccess.read 0x0A0#12 8
    (Accessing a [] (asked [.access a] State.reset) ∧ ¬LegalAccess 0x0A8#12 8) ∧
    (Accessing b [] (asked [.access b] State.reset) ∧ LegalAccess 0x0A0#12 8) :=
  ⟨⟨⟨rfl, rfl, rfl⟩, witness_legalAccess.2.2.2.2.1⟩, ⟨⟨rfl, rfl, rfl⟩, witness_legalAccess.2.1⟩⟩
theorem witness_readsAreIdempotent :
    let r := BusAccess.read 0x100#12 8
    Accessing r (.access r :: []) (asked [.access r, .access r] State.reset) := ⟨rfl, rfl, rfl⟩
theorem witness_statusWriteClearsErrorOnly :
    let w := BusAccess.write 0x088#12 8 0xDEAD#64
    let n := BusAccess.write 0x080#12 8 0x63000000#64
    Accessing w (.access n :: []) (asked [.access w, .access n] (failed .domain State.reset)) := ⟨rfl, rfl, rfl⟩
theorem witness_interruptFollowsHeldError :
    let w := BusAccess.write 0x090#12 8 1#64
    let c := BusAccess.write 0x088#12 8 0#64
    (Accessing w [] (asked [.access w] (failed .domain State.reset)) ∧
      (asked [.access w] (failed .domain State.reset)).err ≠ .none) ∧
    (asked [.access c] (failed .domain { State.reset with irqEn := true })).irq = true ∧
    ∃ t, step (asked [.access c] (failed .domain { State.reset with irqEn := true })) = .next t ∧ t.irq = false :=
  ⟨⟨⟨rfl, rfl, rfl⟩, by decide⟩, by decide, _, rfl, by decide⟩

/-! The results of the commands: no error held, and the operand conditions of each clause at their boundaries. -/

theorem witness_copyAndMove : State.reset.err = .none ∧ (3 : Reg) ≠ 2 := by decide
theorem witness_widenExtendsNativeInteger :
    State.reset.err = .none ∧ ¬(true = true ∧ Width.w8 = .bool) ∧ ¬(false = true ∧ Width.bool = .bool) ∧ 63 < 64 := by
  decide
theorem witness_narrowKeepsLowBits : State.reset.err = .none ∧ Width.w8 ≠ .bool := by decide
theorem witness_unencodableFormsRaiseIllegal : (inFlight 0x18200008#32 State.reset).err = .none := rfl
theorem witness_bitwiseActsBitByBit : (start bits).err = .none ∧ 127 < 128 := by decide
/-- Amounts 127 and 128, the two sides of the clauses. -/
theorem witness_shiftLeftByLimbs :
    (start (shifted 127)).err = .none ∧ ¬128 ≤ val ((start (shifted 127)).getU 1) ∧
    128 ≤ val ((start (shifted 128)).getU 1) := by decide
theorem witness_shiftRightByLimbs :
    (start (shifted 127)).err = .none ∧ ¬128 ≤ val ((start (shifted 127)).getU 1) ∧
    128 ≤ val ((start (shifted 0x10000000000000000)).getU 1) := by decide
theorem witness_comparisonsOrderValues : (start low).err = .none := rfl
theorem witness_addPropagatesCarry : (start low).err = .none := rfl
theorem witness_subPropagatesBorrow : (start low).err = .none := rfl
theorem witness_negateIncrementDecrement : (start top).err = .none := rfl
theorem witness_multiplyByDigits : (start same).err = .none := rfl
theorem witness_subtractionAddsNegation :
    (start [(0, 5), (1, 1)]).err = .none ∧ (4 : Reg) ≠ 0 ∧ (start [(0, 5), (1, 1)]).getU 1 = 1#128 := by decide
theorem witness_quotientAndRemainder :
    (start [(0, 0x64), (1, 1)]).err = .none ∧ val ((start [(0, 0x64), (1, 1)]).getU 1) ≠ 0 := by decide
theorem witness_divmodWritesBoth :
    (start [(0, 0x64), (1, 7)]).err = .none ∧ (0 : Reg) ≠ 1 ∧ val ((start [(0, 0x64), (1, 7)]).getU 1) ≠ 0 := by decide
theorem witness_zeroDivisorRaisesDomain :
    let s := start [(0, 5), (1, 0), (2, 1)]
    s.err = .none ∧ (2 : Reg) ≠ 3 ∧ val (s.getU 1) = 0 ∧ val (s.getU 2) ≠ 0 := by decide
theorem witness_longDivisionIsDivision : (0x80000000000000000000000000000001#128) ≠ 0#128 := by decide
theorem witness_divmodMulAddRestoresDividend :
    (start [(0, 0x64), (1, 7)]).err = .none ∧ val ((start [(0, 0x64), (1, 7)]).getU 1) ≠ 0 ∧
    (2 : Reg) ≠ 3 ∧ (1 : Reg) ≠ 2 ∧ (1 : Reg) ≠ 3 ∧ (4 : Reg) ≠ 3 := by decide
theorem witness_bitLengthBoundsValue : (start top).err = .none := rfl
theorem witness_strRendersValue :
    (start top).err = .none ∧ 2 ≤ (2#5).toNat ∧ (2#5).toNat ≤ 16 ∧ 2 ≤ (16#5).toNat ∧ (16#5).toNat ≤ 16 := by decide
theorem witness_strRejectsBadBase :
    (start top).err = .none ∧ (1#5).toNat < 2 ∧ 16 < (17#5).toNat := by decide
theorem witness_onlyDestinationsAreWritten :
    exec (.cpy 0 1) (start low) = .next ((start low).setU 0 ((start low).getU 1)) ∧ (1 : Reg) ∉ dests (.cpy 0 1) ∧
    rendersText (.cpy 0 1) = false :=
  ⟨rfl, by decide, rfl⟩
theorem witness_onlyListedErrorsAreRaised :
    (Instr.div 2 0 3).wellFormed = true ∧ (start low).err = .none ∧ operandError (.div 2 0 3) (start low) = .domain := by
  decide
theorem witness_errorsArePrecise :
    (start low).err = .none ∧ exec (.str 0 17 0) (start low) = .next ((start low).raise .invalidArg) ∧
    ((start low).raise .invalidArg).err ≠ .none :=
  ⟨rfl, rfl, by decide⟩
theorem witness_errorsArePrecise_step :
    let s := inFlight 0xB0001100#32 (start low)
    InFlight s ∧ s.err = .none ∧ ∃ t, step s = .next t ∧ t.err ≠ .none :=
  ⟨⟨rfl, rfl, by decide⟩, rfl, _, rfl, by decide⟩
theorem witness_firstErrorIsKept :
    let s := failed .domain State.reset
    s.err ≠ .none ∧ step s = .next s := ⟨by decide, rfl⟩
theorem witness_resultsDependOnSourcesOnly :
    (start low).err = .none ∧ (start (low ++ [(5, 9)])).err = .none ∧
    (∀ r ∈ sources (.add 2 0 1), (start low).getU r = (start (low ++ [(5, 9)])).getU r) ∧
    (∃ t, exec (.add 2 0 1) (start low) = .next t ∧ t.err = .none) ∧
    (∃ t, exec (.add 2 0 1) (start (low ++ [(5, 9)])) = .next t) :=
  ⟨rfl, rfl, by decide, ⟨_, rfl, rfl⟩, ⟨_, rfl⟩⟩
/-- A state with ADD in flight meets the invariant, and its step completes the command. -/
theorem witness_stepKeepsInvariant :
    let s := inFlight 0x62040000#32 (start low)
    s.Inv ∧ ∃ t, step s = .next t ∧ t.busy = false :=
  ⟨⟨by decide, nofun, nofun, fun _ _ => rfl, fun _ => rfl, fun _ => rfl, trivial, nofun⟩, ⟨_, rfl, rfl⟩⟩

end Sys2Proof.Tests
end

section
/-! The state after reset (10_state.md R35). -/

namespace Sys2Proof.Machine

/-- Every operand register holds zero after reset (R23, R35). -/
@[simp] theorem State.getU_reset (r : Reg) : State.reset.getU r = 0#128 := by
  simp [State.reset, State.getU]

/-- The string buffer is empty after reset, so every index reads as the unwritten byte (R29, R35). -/
@[simp] theorem State.strByte_reset (i : Nat) : State.reset.strByte i = 0x00#8 := rfl

@[simp] theorem highLimb_zero : highLimb 0#128 = 0#64 := by decide
@[simp] theorem lowLimb_zero : lowLimb 0#128 = 0#64 := by decide

/-- With no error held STATUS reads as zero, its reserved bits included (R24, R25). -/
theorem statusImage_of_clear {s : State} (h : s.err = .none) : statusImage s = 0#64 := by
  simp [statusImage, h, ErrCode.code]

/-- With the interrupt disabled CTRL reads as zero, its reserved bits included (R26). -/
theorem ctrlImage_of_disabled {s : State} (h : s.irqEn = false) : ctrlImage s = 0#64 := by
  simp [ctrlImage, h]

/-- With no error held the interrupt output is low (R34, R264). -/
theorem State.irq_of_clear {s : State} (h : s.err = .none) : s.irq = false := by
  simp [State.irq, h]

/-- Settles O12: the fields are read off `State.reset`; the registers, STRBUF, the bus images and `irq` follow from
their lemmas. -/
theorem resetValues : Obligations.ResetValues := by
  have clear : State.reset.err = .none := rfl
  have disabled : State.reset.irqEn = false := rfl
  have limbs (r : Reg) : highLimb (State.reset.getU r) = 0#64 ∧ lowLimb (State.reset.getU r) = 0#64 := by simp
  exact ⟨limbs, clear, statusImage_of_clear clear, disabled, ctrlImage_of_disabled disabled, rfl, rfl,
    fun i _ => State.strByte_reset i, rfl, State.irq_of_clear clear⟩

end Sys2Proof.Machine
end

section
/-! The bus, access by access (20_memory.md R52 to R60). -/

namespace Sys2Proof.Machine

/-- A read of a mapped location answers what the location holds and changes nothing (R54, R60). -/
theorem busAccess_read {addr : Offset} {size : Nat} {l : Location} (h : busLocation addr size = some l) (s : State) :
    busAccess s (.read addr size) = (.data (readLocation s l), s) := by
  simp [busAccess, h]

/-- A write to a mapped location answers OKAY and has the effect of the location (R54). -/
theorem busAccess_write {addr : Offset} {size : Nat} {l : Location} (h : busLocation addr size = some l) (s : State)
    (wdata : Limb) : busAccess s (.write addr size wdata) = (.okay, writeLocation s wdata l) := by
  simp [busAccess, h]

/-! ## Register images (R57) -/

/-- STATUS reads as the code of ERR, its reserved bits 0 (10_state.md R24, R25). -/
theorem statusImage_toNat (s : State) : (statusImage s).toNat = s.err.code.toNat :=
  BitVec.toNat_setWidth_of_le (by decide)

/-- CTRL reads as IRQ_EN, its reserved bits 0 (10_state.md R26). -/
theorem ctrlImage_toNat (s : State) : (ctrlImage s).toNat = if s.irqEn then 1 else 0 := by
  cases h : s.irqEn <;> simp [ctrlImage, h]

/-- Settles O16: each location's rule of `busAccess`, and the numbers the images denote. -/
theorem registerImages : Obligations.RegisterImages := by
  intro s wdata
  refine ⟨⟨_, busAccess_read busLocation_status s, ?_⟩, ⟨_, busAccess_read busLocation_ctrl s, ctrlImage_toNat s⟩,
    ⟨_, busAccess_read busLocation_errCmd s, BitVec.toNat_setWidth_of_le (by decide)⟩,
    ⟨_, busAccess_read busLocation_strLen s, BitVec.toNat_setWidth_of_le (by decide)⟩,
    busAccess_write busLocation_ctrl s wdata, busAccess_write busLocation_status s wdata⟩
  have status : (readLocation s .status).toNat = s.err.code.toNat := statusImage_toNat s
  rw [status]
  cases s.err <;> simp [ErrCode.code]

/-- Settles O18: the location's effect is no change, for each of the read-only locations. -/
theorem readOnlyWritesAreIgnored : Obligations.ReadOnlyWritesAreIgnored := fun s wdata =>
  ⟨busAccess_write busLocation_errCmd s wdata, busAccess_write busLocation_strLen s wdata,
    fun k => busAccess_write (busLocation_strBuf k) s wdata⟩

/-! ## Limbs (R55) -/

/-- Settles O15: a limb write is a register write of the pair of the new limb and the old one, and the limbs of a pair
are its components. -/
theorem limbAccesses : Obligations.LimbAccesses := by
  intro s n wdata
  have frame (v : U128) : ChangesOnly [n] s (s.setU n v) := setU_changesOnly s n v [n] (List.mem_singleton_self n)
  exact ⟨busAccess_read (busLocation_low n) s, busAccess_read (busLocation_high n) s,
    ⟨_, busAccess_write (busLocation_low n) s wdata, by simp [writeLocation], by simp [writeLocation], frame _⟩,
    ⟨_, busAccess_write (busLocation_high n) s wdata, by simp [writeLocation], by simp [writeLocation], frame _⟩⟩

/-! ## STRBUF words (R58) -/

/-- Byte `j` of a word in which only byte `i` is set. -/
theorem extractLsb'_byteAt (b : Byte) (i j : Nat) (hj : j < 8) :
    (b.setWidth 64 <<< (8 * i)).extractLsb' (8 * j) 8 = if i = j then b else 0#8 := by
  ext t ht
  have inside : 8 * j + t < 64 := by omega
  rcases Nat.lt_trichotomy i j with h | rfl | h
  · have above : 8 ≤ 8 * j + t - 8 * i := by omega
    simp [h.ne, BitVec.getLsbD_of_ge b _ above]
  · simp [inside, ht]
  · have below : 8 * j + t < 8 * i := by omega
    simp [h.ne', below]

/-- Byte `j` of STRBUF word `k` is the character `8k+j` (R58). -/
theorem strWord_byte (s : State) (k : Fin 32) {j : Nat} (hj : j < 8) :
    (strWord s k).extractLsb' (8 * j) 8 = s.strByte (8 * k + j) := by
  simp only [strWord, BitVec.extractLsb'_or, extractLsb'_byteAt _ _ _ hj]
  interval_cases j <;> simp

/-- Settles O17: the rule of a read, and the bytes of a STRBUF word. -/
theorem strbufWordsAreLittleEndian : Obligations.StrbufWordsAreLittleEndian := fun s k =>
  ⟨_, busAccess_read (busLocation_strBuf k) s, fun _ hj => strWord_byte s k hj⟩

/-! ## Legal and illegal accesses (R52 to R54) -/

/-- The mapped rows, as two ranges of 8-byte-aligned offsets (R54, R63). -/
theorem mappedRow_isSome_iff {a : Nat} (h : a % 8 = 0) :
    (mappedRow a).isSome ↔ a < 0x0A8 ∨ (0x100 ≤ a ∧ a < 0x200) := by
  unfold mappedRow
  split_ifs <;>
    simp only [Option.isSome_some, Option.isSome_none, Bool.false_eq_true, true_iff, false_iff] <;> omega

/-- An access has a location just when it is legal (R52, R53). -/
theorem busLocation_isSome_iff (addr : Offset) (size : Nat) :
    (busLocation addr size).isSome ↔ LegalAccess addr size := by
  unfold busLocation LegalAccess
  split
  · next h => simp [h.1, h.2, mappedRow_isSome_iff h.2]
  · next h => exact iff_of_false (by simp) fun legal => h ⟨legal.1, legal.2.1⟩

/-- The offset of an access. -/
@[simp] def BusAccess.addr : BusAccess → Offset
  | .read addr _ => addr
  | .write addr _ _ => addr

/-- The size of an access. -/
@[simp] def BusAccess.size : BusAccess → Nat
  | .read _ size => size
  | .write _ size _ => size

/-- An access that is not legal answers BUS_ERROR and changes nothing (R52, R53; 60_exceptions.md R261). -/
theorem busAccess_of_illegal {a : BusAccess} (h : ¬LegalAccess a.addr a.size) (s : State) :
    busAccess s a = (.busError, s) := by
  have unmapped : busLocation a.addr a.size = none := by simpa [← busLocation_isSome_iff] using h
  cases a with
  | read addr size => simp [busAccess, show busLocation addr size = none from unmapped]
  | write addr size wdata => simp [busAccess, show busLocation addr size = none from unmapped]

/-- A legal access never answers BUS_ERROR (R52). -/
theorem busAccess_of_legal {a : BusAccess} (h : LegalAccess a.addr a.size) (s : State) :
    (busAccess s a).1 ≠ .busError := by
  obtain ⟨l, hl⟩ := Option.isSome_iff_exists.1 ((busLocation_isSome_iff ..).2 h)
  cases a with
  | read addr size => simp [busAccess_read (addr := addr) (size := size) hl]
  | write addr size wdata => simp [busAccess_write (addr := addr) (size := size) hl]

/-- Settles O19: an access of an idle block is performed by the step, so its answer and effect are those of
`busAccess`. -/
theorem illegalAccessesChangeNothing : Obligations.IllegalAccessesChangeNothing := by
  intro addr size s rest a ha hs
  obtain ⟨rfl, rfl⟩ : a.addr = addr ∧ a.size = size := by
    obtain rfl | ⟨wdata, rfl⟩ := ha <;> exact ⟨rfl, rfl⟩
  refine ⟨fun illegal => ?_, fun legal => ⟨_, step_access hs, ?_⟩⟩
  · have idle : s.busy = false := hs.2.2
    simp [step_access hs, performAccess, busAccess_of_illegal illegal, idle]
  · rw [performAccess_answer]
    split
    · nofun
    · exact fun e => busAccess_of_legal legal _ (Option.some.inj e)

end Sys2Proof.Machine
end

section
/-! Copy, move and conversion (40_convert.md). -/

namespace Sys2Proof

/-- A native integer has at least one bit. -/
theorem Width.bits_pos (w : Width) : 0 < w.bits := by cases w <;> decide

/-- A native integer fits in a limb. -/
theorem Width.bits_le (w : Width) : w.bits ≤ 64 := by cases w <;> decide

end Sys2Proof

namespace Sys2Proof.Machine

/-! ## Copy and move (R100, R102) -/

/-- A move leaves the source's value in the destination (R102). -/
theorem moveEffect_getU_dest (rd ra : Reg) (s : State) : (moveEffect rd ra s).getU rd = s.getU ra := by
  unfold moveEffect
  split
  · exact State.getU_setU_self ..
  · next h => rw [State.getU_setU_of_ne _ _ _ _ h, State.getU_setU_self]

/-- A move to another register leaves zero in the source (R102). -/
theorem moveEffect_getU_source {rd ra : Reg} (h : ra ≠ rd) (s : State) : (moveEffect rd ra s).getU ra = 0#128 := by
  rw [moveEffect, if_neg h.symm, State.getU_setU_self]
  rfl

/-- A move changes its destination and its source only. -/
theorem moveEffect_changesOnly (rd ra : Reg) (s : State) : ChangesOnly [rd, ra] s (moveEffect rd ra s) := by
  have toDest (v : U128) : ChangesOnly [rd, ra] s (s.setU rd v) := setU_changesOnly s rd v _ (by simp)
  unfold moveEffect
  split
  · exact toDest _
  · exact (toDest _).trans (setU_changesOnly _ ra _ _ (by simp))

/-- Settles O23: CPY by the rules of a two-register command, MVZ by the rules of the move. -/
theorem copyAndMove : Obligations.CopyAndMove := fun s d a h =>
  ⟨completesWith_of_command rfl h ⟨unary_getU .., unary_changesOnly ..⟩,
    completesWith_of_command rfl h
      ⟨moveEffect_getU_dest d a s, fun hne => moveEffect_getU_source hne s, moveEffect_changesOnly d a s⟩⟩

/-! ## The native integer (R104; 30_encoding.md R85) -/

/-- The bits of the native integer are the source's bits below the width. -/
theorem nativeField_getLsbD (w : Width) (x : U128) (j : Nat) :
    (nativeField w x).getLsbD j = (decide (j < w.bits) && x.getLsbD j) := by
  have fits := w.bits_le
  simp only [nativeField, lowLimb, BitVec.getLsbD_setWidth, BitVec.getLsbD_extractLsb', Nat.zero_add]
  grind

/-- The value of the native integer is the source modulo 2 to the width. -/
theorem nativeField_toNat (w : Width) (x : U128) : (nativeField w x).toNat = val x % 2 ^ w.bits := by
  have fits : 2 ^ w.bits ∣ 2 ^ 64 := Nat.pow_dvd_pow 2 w.bits_le
  simp only [nativeField, lowLimb, BitVec.toNat_setWidth, BitVec.extractLsb'_toNat, Nat.shiftRight_zero,
    Nat.mod_mod_of_dvd _ fits, val]

/-- The bits of the extended native integer: above the width, copies of the top bit if signed, 0 if not
(00_scope.md R10). -/
theorem extend64_getLsbD (signed : Bool) (w : Width) (f : BitVec w.bits) {j : Nat} (hj : j < 64) :
    (extend64 signed w f).getLsbD j = if j < w.bits then f.getLsbD j else signed && f.getLsbD (w.bits - 1) := by
  cases signed with
  | true =>
    simp only [extend64, if_true, BitVec.getLsbD_signExtend, BitVec.msb_eq_getLsbD_last, hj, decide_true,
      Bool.true_and]
  | false =>
    simp only [extend64, Bool.false_eq_true, if_false, BitVec.getLsbD_setWidth, hj, decide_true, Bool.true_and,
      Bool.false_and]
    split
    · rfl
    · next h => exact BitVec.getLsbD_of_ge f j (Nat.le_of_not_lt h)

/-- Zero extension keeps the value of the native integer (00_scope.md R10). -/
theorem extend64_unsigned_toNat (w : Width) (f : BitVec w.bits) : (extend64 false w f).toNat = f.toNat :=
  BitVec.toNat_setWidth_of_le w.bits_le

/-! ## WIDEN (R104) -/

/-- The high limb WIDEN writes is zero, whatever the sign (R104; 90_conflicts.md C2). -/
theorem highLimb_widenValue (signed : Bool) (w : Width) (x : U128) : highLimb (widenValue signed w x) = 0#64 :=
  highLimb_ofLimbs ..

/-- The low limb WIDEN writes, bit by bit. -/
theorem lowLimb_widenValue_getLsbD (signed : Bool) (w : Width) (x : U128) {j : Nat} (hj : j < 64) :
    (lowLimb (widenValue signed w x)).getLsbD j =
      if j < w.bits then x.getLsbD j else signed && x.getLsbD (w.bits - 1) := by
  have top : w.bits - 1 < w.bits := Nat.sub_lt w.bits_pos Nat.one_pos
  rw [widenValue, lowLimb_ofLimbs, extend64_getLsbD signed w _ hj]
  split
  · next h => rw [nativeField_getLsbD, decide_eq_true h, Bool.true_and]
  · rw [nativeField_getLsbD, decide_eq_true top, Bool.true_and]

/-- WIDEN of anything but a signed bool is a two-register command (R104; 30_encoding.md R88 f). -/
theorem widenEffect_of_legal {signed : Bool} {w : Width} (h : ¬(signed = true ∧ w = .bool)) (rd ra : Reg) :
    widenEffect rd ra signed w = unary (widenValue signed w) rd ra := by
  funext s
  exact if_neg (by simpa using h)

/-- Settles O24: a legal WIDEN writes the pair of a zero limb and the extended native integer. -/
theorem widenExtendsNativeInteger : Obligations.WidenExtendsNativeInteger := by
  intro s d a signed w h legal
  have effect : exec (.widen d a signed w) s = command (unary (widenValue signed w) d a) s := by
    rw [← widenEffect_of_legal legal]
    rfl
  refine completesWith_of_command effect h ⟨?_, fun j hj => ?_, unary_changesOnly ..⟩
  · rw [unary_getU, highLimb_widenValue]
  · rw [unary_getU, lowLimb_widenValue_getLsbD signed w _ hj]

/-! ## NARROW (R106) -/

/-- The value of a Boolean (00_scope.md R10). -/
theorem val_b2u (c : Bool) : val (b2u c) = if c then 1 else 0 := by cases c <;> decide

/-- A value is zero just when both its limbs are. -/
theorem val_eq_zero_iff_limbs (x : U128) : val x = 0 ↔ highLimb x = 0#64 ∧ lowLimb x = 0#64 := by
  have pair := val_ofLimbs (highLimb x) (lowLimb x)
  rw [ofLimbs_limbs] at pair
  simp only [← BitVec.toNat_inj, BitVec.toNat_ofNat, Nat.zero_mod]
  omega

/-- NARROW to bool is 1 for a value that is not zero and 0 for zero (R106). -/
theorem val_narrowValue_bool (x : U128) : val (narrowValue .bool x) = if val x = 0 then 0 else 1 := by
  have someBit : (highLimb x != 0 || lowLimb x != 0) = !decide (val x = 0) := by
    rw [Bool.eq_iff_iff]
    simp [val_eq_zero_iff_limbs]
  rw [narrowValue, someBit, val_b2u]
  simp

/-- NARROW to a wider integer keeps the source modulo 2 to the width (R106). -/
theorem val_narrowValue_of_ne_bool {w : Width} (h : w ≠ .bool) (x : U128) :
    val (narrowValue w x) = val x % 2 ^ w.bits := by
  have value : narrowValue w x = ofLimbs 0 (extend64 false w (nativeField w x)) := by
    cases w with
    | bool => exact absurd rfl h
    | _ => rfl
  simp [value, val_ofLimbs, extend64_unsigned_toNat, nativeField_toNat]

/-- Settles O25: NARROW is a two-register command, and its value is known for bool and for every wider integer. -/
theorem narrowKeepsLowBits : Obligations.NarrowKeepsLowBits := by
  intro s d a w h
  refine completesWith_of_command rfl h ⟨?_, fun wide => ?_, unary_changesOnly ..⟩
  · rintro rfl
    rw [unary_getU, val_narrowValue_bool]
  · rw [unary_getU, val_narrowValue_of_ne_bool wide]

end Sys2Proof.Machine
end

section
/-! Bitwise unit (41_bitwise.md): a limb-wise operation that acts on each bit alone acts so on the 128 bits. -/

namespace Sys2Proof

/-- The bits of the high limb are bits 127:64 of the value (00_scope.md R8). -/
theorem highLimb_getLsbD (x : U128) {i : Nat} (hi : i < 64) : (highLimb x).getLsbD i = x.getLsbD (64 + i) := by
  simp [highLimb, hi]

/-- The bits of the low limb are bits 63:0 of the value (00_scope.md R8). -/
theorem lowLimb_getLsbD (x : U128) {i : Nat} (hi : i < 64) : (lowLimb x).getLsbD i = x.getLsbD i := by
  simp [lowLimb, hi]

end Sys2Proof

namespace Sys2Proof.Machine

/-- A limb-wise operation that is the Boolean function `g` on each bit of a limb is `g` on each bit of the value. -/
theorem limbwise_getLsbD {f : Limb → Limb → Limb} {g : Bool → Bool → Bool}
    (bitwise : ∀ p q i, i < 64 → (f p q).getLsbD i = g (p.getLsbD i) (q.getLsbD i)) (x y : U128) {j : Nat}
    (hj : j < 128) : (limbwise f x y).getLsbD j = g (x.getLsbD j) (y.getLsbD j) := by
  rcases Nat.lt_or_ge j 64 with low | high
  · rw [← lowLimb_getLsbD (limbwise f x y) low, limbwise, lowLimb_ofLimbs, bitwise _ _ _ low,
      lowLimb_getLsbD x low, lowLimb_getLsbD y low]
  · obtain ⟨i, rfl⟩ := Nat.exists_eq_add_of_le high
    have inside : i < 64 := by omega
    rw [← highLimb_getLsbD (limbwise f x y) inside, limbwise, highLimb_ofLimbs, bitwise _ _ _ inside,
      highLimb_getLsbD x inside, highLimb_getLsbD y inside]

/-- A command that applies such an operation limb by limb completes with `g` of the operands' bits in its destination,
and changes nothing else. -/
theorem completesWith_of_limbwise {i : Instr} {s : State} {d a b : Reg} {f : Limb → Limb → Limb}
    (g : Bool → Bool → Bool) (he : exec i s = command (binary (limbwise f) d a b) s) (h : s.err = .none)
    (bitwise : ∀ p q i, i < 64 → (f p q).getLsbD i = g (p.getLsbD i) (q.getLsbD i)) :
    CompletesWith i s fun t =>
      (∀ j, j < 128 → (t.getU d).getLsbD j = g ((s.getU a).getLsbD j) ((s.getU b).getLsbD j)) ∧
        ChangesOnly [d] s t := by
  refine completesWith_of_command he h ⟨fun j hj => ?_, binary_changesOnly ..⟩
  rw [binary_getU, limbwise_getLsbD bitwise _ _ hj]

/-- NOT is the limb-wise complement, its one source read as both (R123). -/
theorem exec_not_limbwise (d a : Reg) (s : State) :
    exec (.not d a) s = command (binary (limbwise fun p _ => ~~~p) d a a) s := rfl

/-- Settles O27: each of the four commands is a limb-wise operation, and a limb's `&&&`, `|||`, `^^^` and `~~~` act on
each bit alone. -/
theorem bitwiseActsBitByBit : Obligations.BitwiseActsBitByBit := fun s d a b h =>
  ⟨completesWith_of_limbwise and rfl h fun _ _ _ _ => BitVec.getLsbD_and,
    completesWith_of_limbwise or rfl h fun _ _ _ _ => BitVec.getLsbD_or,
    completesWith_of_limbwise xor rfl h fun _ _ _ _ => BitVec.getLsbD_xor,
    completesWith_of_limbwise (fun p _ => !p) (exec_not_limbwise d a s) h fun p _ i hi => by simp [hi]⟩

end Sys2Proof.Machine
end

section
/-! The barrel shifter (42_shift.md): the values SHL and SHR write, and the limb cases of R143 and R144, are both the
shift of the 128-bit vector by the value of the amount. -/

namespace Sys2Proof

/-- A value is the pair of its limbs (00_scope.md R8). -/
theorem ofLimbs_eq {x : U128} {h l : Limb} (high : highLimb x = h) (low : lowLimb x = l) : ofLimbs h l = x := by
  rw [← high, ← low, ofLimbs_limbs]

/-! ## The limbs of a left shift -/

/-- Nothing enters the low limb from above. -/
theorem lowLimb_shiftLeft (x : U128) (n : Nat) : lowLimb (x <<< n) = lowLimb x <<< n := by
  ext i hi
  have inside : i < 128 := by omega
  simp [lowLimb, inside, -BitVec.getLsbD_eq_getElem]

/-- Bits that cross the limb boundary leave the low limb and enter the high one; the others stay in their limb. -/
theorem highLimb_shiftLeft_of_lt (x : U128) {n : Nat} (hn : n < 64) :
    highLimb (x <<< n) = highLimb x <<< n ||| lowLimb x >>> (64 - n) := by
  ext i hi
  have inside : 64 + i < 128 := by omega
  have straight : ¬64 + i < n := by omega
  rcases Nat.lt_or_ge i n with crosses | stays
  · have source : 64 - n + i < 64 := by omega
    have place : 64 + i - n = 64 - n + i := by omega
    simp [highLimb, lowLimb, inside, straight, crosses, source, place, -BitVec.getLsbD_eq_getElem]
  · have outside : ¬64 - n + i < 64 := by omega
    have place : 64 + i - n = 64 + (i - n) := by omega
    simp [highLimb, lowLimb, inside, straight, stays, outside, place, -BitVec.getLsbD_eq_getElem]

/-- From 64 on the low limb is empty. -/
theorem lowLimb_shiftLeft_of_ge (x : U128) {n : Nat} (hn : 64 ≤ n) : lowLimb (x <<< n) = 0 :=
  (lowLimb_shiftLeft x n).trans (BitVec.shiftLeft_eq_zero hn)

/-- From 64 on every bit of the high limb comes from the low limb. -/
theorem highLimb_shiftLeft_of_ge (x : U128) {n : Nat} (hn : 64 ≤ n) :
    highLimb (x <<< n) = lowLimb x <<< (n - 64) := by
  obtain ⟨m, rfl⟩ := Nat.exists_eq_add_of_le hn
  ext i hi
  have inside : 64 + i < 128 := by omega
  simp [highLimb, lowLimb, inside, Nat.add_sub_add_left, -BitVec.getLsbD_eq_getElem]

/-! ## The limbs of a right shift -/

/-- Nothing enters the high limb from below. -/
theorem highLimb_ushiftRight (x : U128) (n : Nat) : highLimb (x >>> n) = highLimb x >>> n := by
  ext i hi
  have place : n + (64 + i) = 64 + (n + i) := by omega
  rcases Nat.lt_or_ge (n + i) 64 with source | outside
  · simp [highLimb, place, source]
  · simp [highLimb, place, BitVec.getLsbD_of_ge x (64 + (n + i)) (by omega)]

/-- Bits that cross the limb boundary leave the high limb and enter the low one; the others stay in their limb. -/
theorem lowLimb_ushiftRight_of_lt (x : U128) {n : Nat} (hn : n < 64) :
    lowLimb (x >>> n) = lowLimb x >>> n ||| highLimb x <<< (64 - n) := by
  ext i hi
  rcases Nat.lt_or_ge (n + i) 64 with stays | crosses
  · have below : i < 64 - n := by omega
    simp [highLimb, lowLimb, stays, below]
  · have above : ¬i < 64 - n := by omega
    have outside : ¬n + i < 64 := by omega
    have place : 64 + (i - (64 - n)) = n + i := by omega
    simp [highLimb, lowLimb, above, outside, place]

/-- From 64 on the high limb is empty. -/
theorem highLimb_ushiftRight_of_ge (x : U128) {n : Nat} (hn : 64 ≤ n) : highLimb (x >>> n) = 0 :=
  (highLimb_ushiftRight x n).trans (BitVec.ushiftRight_eq_zero hn)

/-- From 64 on every bit of the low limb comes from the high limb. -/
theorem lowLimb_ushiftRight_of_ge (x : U128) {n : Nat} (hn : 64 ≤ n) :
    lowLimb (x >>> n) = highLimb x >>> (n - 64) := by
  obtain ⟨m, rfl⟩ := Nat.exists_eq_add_of_le hn
  ext i hi
  rcases Nat.lt_or_ge (m + i) 64 with source | outside
  · simp [highLimb, lowLimb, source, Nat.add_assoc]
  · simp [highLimb, lowLimb, Nat.add_assoc, BitVec.getLsbD_of_ge x (64 + (m + i)) (by omega)]

end Sys2Proof

namespace Sys2Proof.Machine

/-! ## SHL (R140, R141, R143) -/

/-- The number SHL writes (R141). -/
theorem val_shlValue (x amount : U128) :
    val (shlValue x amount) = if 128 ≤ val amount then 0 else val x * 2 ^ val amount % 2 ^ 128 := by
  unfold shlValue
  split
  · rfl
  · exact val_trunc128 _

/-- The value SHL writes is the shifted vector, which is zero from 128 on too. -/
theorem shlValue_eq_shiftLeft (x amount : U128) : shlValue x amount = x <<< val amount := by
  unfold shlValue
  split
  · next h => exact (BitVec.shiftLeft_eq_zero h).symm
  · rw [← BitVec.toNat_inj, BitVec.toNat_shiftLeft, Nat.shiftLeft_eq]
    exact val_trunc128 _

/-- The limb cases of R143 give the shifted vector. -/
theorem shlByLimbs_eq_shiftLeft (x amount : U128) : shlByLimbs x amount = x <<< val amount := by
  simp only [shlByLimbs]
  split_ifs with zero below equal within
  · rw [zero, ofLimbs_limbs, BitVec.shiftLeft_zero]
  · exact ofLimbs_eq (highLimb_shiftLeft_of_lt x below) (lowLimb_shiftLeft x _)
  · refine ofLimbs_eq ?_ (lowLimb_shiftLeft_of_ge x equal.ge)
    rw [highLimb_shiftLeft_of_ge x equal.ge, equal, Nat.sub_self, BitVec.shiftLeft_zero]
  · have above : 64 ≤ val amount := Nat.le_of_not_lt below
    exact ofLimbs_eq (highLimb_shiftLeft_of_ge x above) (lowLimb_shiftLeft_of_ge x above)
  · exact (BitVec.shiftLeft_eq_zero (Nat.le_of_not_lt within)).symm

/-- Settles O28: the value SHL writes and the limb cases are the same shifted vector. -/
theorem shiftLeftByLimbs : Obligations.ShiftLeftByLimbs := by
  intro s d a b h
  refine completesWith_of_command rfl h ⟨?_, ?_, binary_changesOnly ..⟩
  · rw [binary_getU, val_shlValue]
  · rw [binary_getU, shlValue_eq_shiftLeft, shlByLimbs_eq_shiftLeft]

/-! ## SHR (R140, R142, R144) -/

/-- The number SHR writes; a quotient is never truncated (R142). -/
theorem val_shrValue (x amount : U128) :
    val (shrValue x amount) = if 128 ≤ val amount then 0 else val x / 2 ^ val amount := by
  unfold shrValue
  split
  · rfl
  · rw [val_trunc128, Nat.mod_eq_of_lt ((Nat.div_le_self ..).trans_lt (val_lt x))]

/-- The value SHR writes is the shifted vector, which is zero from 128 on too. -/
theorem shrValue_eq_ushiftRight (x amount : U128) : shrValue x amount = x >>> val amount := by
  have quotient : val (x >>> val amount) = val x / 2 ^ val amount :=
    (BitVec.toNat_ushiftRight ..).trans (Nat.shiftRight_eq_div_pow ..)
  unfold shrValue
  split
  · next h => exact (BitVec.ushiftRight_eq_zero h).symm
  · rw [← quotient, trunc128_val]

/-- The limb cases of R144 give the shifted vector. -/
theorem shrByLimbs_eq_ushiftRight (x amount : U128) : shrByLimbs x amount = x >>> val amount := by
  simp only [shrByLimbs]
  split_ifs with zero below equal within
  · rw [zero, ofLimbs_limbs, BitVec.ushiftRight_zero]
  · exact ofLimbs_eq (highLimb_ushiftRight x _) (lowLimb_ushiftRight_of_lt x below)
  · refine ofLimbs_eq (highLimb_ushiftRight_of_ge x equal.ge) ?_
    rw [lowLimb_ushiftRight_of_ge x equal.ge, equal, Nat.sub_self, BitVec.ushiftRight_zero]
  · have above : 64 ≤ val amount := Nat.le_of_not_lt below
    exact ofLimbs_eq (highLimb_ushiftRight_of_ge x above) (lowLimb_ushiftRight_of_ge x above)
  · exact (BitVec.ushiftRight_eq_zero (Nat.le_of_not_lt within)).symm

/-- Settles O29: the value SHR writes and the limb cases are the same shifted vector. -/
theorem shiftRightByLimbs : Obligations.ShiftRightByLimbs := by
  intro s d a b h
  refine completesWith_of_command rfl h ⟨?_, ?_, binary_changesOnly ..⟩
  · rw [binary_getU, val_shrValue]
  · rw [binary_getU, shrValue_eq_ushiftRight, shrByLimbs_eq_ushiftRight]

end Sys2Proof.Machine
end

section
/-! Comparisons (43_compare.md): the limb-wise tests of R160 order the values, and each command writes such a test as a
number. -/

namespace Sys2Proof

/-- The value as the number its limbs denote (00_scope.md R8). -/
theorem val_eq_limbs (x : U128) : val x = (highLimb x).toNat * 2 ^ 64 + (lowLimb x).toNat := by
  rw [← val_ofLimbs, ofLimbs_limbs]

end Sys2Proof

namespace Sys2Proof.Machine

/-- Limb-wise equality is equality of the values (R160). -/
theorem eqU_iff (x y : U128) : eqU x y = true ↔ val x = val y := by
  have lowX := (lowLimb x).isLt
  have lowY := (lowLimb y).isLt
  simp only [eqU, Bool.and_eq_true, beq_iff_eq, ← BitVec.toNat_inj, val_eq_limbs]
  omega

/-- The lexicographic comparison of the limbs orders the values: a low limb is below 2^64, so the high limbs decide
first (R160). -/
theorem ltU_iff (x y : U128) : ltU x y = true ↔ val x < val y := by
  have lowX := (lowLimb x).isLt
  have lowY := (lowLimb y).isLt
  simp only [ltU, Bool.or_eq_true, Bool.and_eq_true, beq_iff_eq, BitVec.ult_eq_decide, decide_eq_true_eq,
    ← BitVec.toNat_inj, val_eq_limbs]
  omega

/-- Limb-wise equality does not depend on the order of its operands. -/
theorem eqU_comm (x y : U128) : eqU x y = eqU y x := by
  rw [Bool.eq_iff_iff, eqU_iff, eqU_iff, eq_comm]

/-- Less or limb-wise equal is less or equal of the values (R165). -/
theorem ltU_or_eqU_iff (x y : U128) : (ltU x y || eqU x y) = true ↔ val x ≤ val y := by
  rw [Bool.or_eq_true, ltU_iff, eqU_iff, Nat.le_iff_lt_or_eq]

/-- A command that writes a test of its two sources completes with 1 when what the test decides holds, else with 0, and
changes nothing else. -/
theorem completesWith_of_test {i : Instr} {s : State} {d a b : Reg} {test : U128 → U128 → Bool} {P : Prop}
    [Decidable P] (he : exec i s = command (binary (fun x y => b2u (test x y)) d a b) s) (h : s.err = .none)
    (decides : test (s.getU a) (s.getU b) = true ↔ P) :
    CompletesWith i s fun t => val (t.getU d) = (if P then 1 else 0) ∧ ChangesOnly [d] s t := by
  refine completesWith_of_command he h ⟨?_, binary_changesOnly ..⟩
  rw [binary_getU, val_b2u, if_congr decides rfl rfl]

/-- Settles O30: each of the six commands writes a test of its sources' limbs, and the test decides the comparison of
the values. CGT is CLT's test and CGE is CLE's, with the sources exchanged: equality does not depend on
their order. -/
theorem comparisonsOrderValues : Obligations.ComparisonsOrderValues := by
  intro s d a b h x y
  have equal : eqU (s.getU a) (s.getU b) = true ↔ x = y := eqU_iff ..
  have unequal : (!eqU (s.getU a) (s.getU b)) = true ↔ x ≠ y := by
    rw [Bool.not_eq_true', ← Bool.not_eq_true, equal]
  have atLeast : (ltU (s.getU b) (s.getU a) || eqU (s.getU a) (s.getU b)) = true ↔ y ≤ x := by
    rw [eqU_comm]
    exact ltU_or_eqU_iff ..
  exact ⟨completesWith_of_test rfl h equal, completesWith_of_test rfl h unequal,
    completesWith_of_test rfl h (ltU_iff ..), completesWith_of_test rfl h (ltU_iff ..),
    completesWith_of_test rfl h (ltU_or_eqU_iff ..), completesWith_of_test rfl h atLeast⟩

end Sys2Proof.Machine
end

section
/-! The adder, subtractor and multiplier (44_arith.md): what each command writes, and what the source's method for its
unit computes, are the same number modulo 2^128. -/

namespace Sys2Proof

/-- A number whose residue is a value truncates to that value (00_scope.md R9). -/
theorem trunc128_eq {n : Nat} {x : U128} (h : val x = n % 2 ^ 128) : trunc128 n = x :=
  BitVec.eq_of_toNat_eq ((val_trunc128 n).trans h.symm)

/-- A truncated integer denotes its residue, negative integers too (00_scope.md R9). -/
theorem val_truncInt128 (z : Int) : (val (truncInt128 z) : Int) = z % 2 ^ 128 := by
  rw [val, truncInt128, BitVec.toNat_ofInt]
  exact Int.toNat_of_nonneg (Int.emod_nonneg z (by decide))

/-- An integer whose residue is a value truncates to that value (00_scope.md R9). -/
theorem truncInt128_eq {z : Int} {x : U128} (h : (val x : Int) = z % 2 ^ 128) : truncInt128 z = x :=
  BitVec.eq_of_toNat_eq (Int.ofNat_inj.1 ((val_truncInt128 z).trans h.symm))

end Sys2Proof

namespace Sys2Proof.Machine

/-! ## ADD (R180, R181) -/

/-- The carry test is exact: a sum of limbs is below its first addend just when it wraps (R181). -/
theorem add_lt_left_iff (x y : Limb) : (x + y).toNat < x.toNat ↔ 2 ^ 64 ≤ x.toNat + y.toNat := by
  have inX := x.isLt
  have inY := y.isLt
  rw [BitVec.toNat_add]
  omega

/-- The carry test may be made against the second addend as well (R181). -/
theorem add_lt_right_iff (x y : Limb) : (x + y).toNat < y.toNat ↔ 2 ^ 64 ≤ x.toNat + y.toNat := by
  rw [BitVec.add_comm, add_lt_left_iff, Nat.add_comm]

/-- The adder's carry propagation adds the values modulo 2^128: the carry is what the low limbs' sum loses (R181). -/
theorem val_addByLimbs (x y : U128) : val (addByLimbs x y) = (val x + val y) % 2 ^ 128 := by
  have lowX := (lowLimb x).isLt
  have lowY := (lowLimb y).isLt
  simp only [addByLimbs, BitVec.ult_eq_decide, decide_eq_true_eq, add_lt_left_iff]
  split <;>
    simp only [val_ofLimbs, val_eq_limbs x, val_eq_limbs y, BitVec.toNat_add, BitVec.reduceToNat] <;> omega

/-- Settles O31: the value ADD writes and the carry propagation are the same sum modulo 2^128. -/
theorem addPropagatesCarry : Obligations.AddPropagatesCarry := by
  intro s d a b h x y
  refine completesWith_of_command rfl h
    ⟨?_, ?_, add_lt_left_iff x y, add_lt_right_iff x y, binary_changesOnly ..⟩
  · rw [binary_getU, val_trunc128]
  · rw [binary_getU, trunc128_eq (val_addByLimbs _ _)]

/-! ## SUB (R182, R183) -/

/-- The borrow test is exact: a difference of limbs is above its minuend just when the subtrahend is (R183). -/
theorem lt_sub_iff (x y : Limb) : x.toNat < (x - y).toNat ↔ x.toNat < y.toNat := by
  have inX := x.isLt
  have inY := y.isLt
  rw [BitVec.toNat_sub]
  omega

/-- The subtractor's borrow propagation subtracts the values modulo 2^128: the borrow is what the low limbs' difference
gains (R183). -/
theorem val_subByLimbs (x y : U128) : (val (subByLimbs x y) : Int) = ((val x : Int) - val y) % 2 ^ 128 := by
  have lowX := (lowLimb x).isLt
  have lowY := (lowLimb y).isLt
  have highY := (highLimb y).isLt
  simp only [subByLimbs, BitVec.ult_eq_decide, decide_eq_true_eq, lt_sub_iff]
  split <;>
    simp only [val_ofLimbs, val_eq_limbs x, val_eq_limbs y, BitVec.toNat_sub, BitVec.reduceToNat] <;> omega

/-- Settles O32: the value SUB writes and the borrow propagation are the same difference modulo 2^128. -/
theorem subPropagatesBorrow : Obligations.SubPropagatesBorrow := by
  intro s d a b h
  refine completesWith_of_command rfl h ⟨?_, ?_, lt_sub_iff _ _, binary_changesOnly ..⟩
  · rw [binary_getU, val_truncInt128]
  · rw [binary_getU, truncInt128_eq (val_subByLimbs _ _)]

/-! ## NEG, INC and DEC (R184, R185, R186) -/

/-- The value NEG writes is the complement plus one (R184). -/
theorem trunc128_complement_succ (x : U128) : trunc128 ((2 ^ 128 - 1 - val x) + 1) = ~~~x + 1#128 := by
  apply trunc128_eq
  rw [val, BitVec.toNat_add, BitVec.toNat_not, BitVec.toNat_one (by decide), val]

/-- The complement plus one is the negation modulo 2^128 (R184). -/
theorem val_complement_succ (x : U128) : (val (~~~x + 1#128) : Int) = -(val x : Int) % 2 ^ 128 := by
  have bound := val_lt x
  rw [← trunc128_complement_succ, val_trunc128]
  omega

/-- Settles O33: the value each command writes denotes the result modulo 2^128. -/
theorem negateIncrementDecrement : Obligations.NegateIncrementDecrement := by
  intro s d a h
  refine ⟨completesWith_of_command rfl h ⟨?_, ?_, unary_changesOnly ..⟩,
    completesWith_of_command rfl h ⟨?_, unary_changesOnly ..⟩,
    completesWith_of_command rfl h ⟨?_, unary_changesOnly ..⟩⟩
  · rw [unary_getU, trunc128_complement_succ, val_complement_succ]
  · rw [unary_getU, trunc128_complement_succ]
  · rw [unary_getU, val_trunc128]
  · rw [unary_getU, val_truncInt128]

/-! ## MUL (R187, R188) -/

/-- A digit by division (R188). -/
theorem mulDigit_eq (x : U128) (i : Nat) : mulDigit x i = val x / (2 ^ 32) ^ i % 2 ^ 32 := by
  rw [mulDigit, BitVec.extractLsb'_toNat, Nat.shiftRight_eq_div_pow, Nat.pow_mul, val]

/-- The low `n` digits at their places sum to the value modulo 2^(32n). -/
theorem sum_digits (x : U128) (n : Nat) :
    ((List.range n).map fun i => mulDigit x i * 2 ^ (32 * i)).sum = val x % (2 ^ 32) ^ n := by
  induction n with
  | zero => simp [Nat.mod_one]
  | succ n ih =>
    rw [List.range_succ, List.map_append, List.sum_append, ih, List.map_singleton, List.sum_singleton, mulDigit_eq,
      Nat.pow_mul, Nat.mul_comm, ← Nat.mod_pow_succ]

/-- A value is the sum of its four digits at their places (R188). -/
theorem sum_four_digits (x : U128) : ((List.range 4).map fun i => mulDigit x i * 2 ^ (32 * i)).sum = val x := by
  rw [sum_digits, ← Nat.pow_mul]
  exact Nat.mod_eq_of_lt (val_lt x)

/-- A partial product is the product of its two digits, each at its own place (R188). -/
theorem partialProduct_eq (x y : U128) (i j : Nat) :
    partialProduct x y (i, j) = mulDigit x i * 2 ^ (32 * i) * (mulDigit y j * 2 ^ (32 * j)) := by
  rw [partialProduct, Nat.mul_add, Nat.pow_add, Nat.mul_mul_mul_comm]

/-- The sixteen partial products sum to the product of the values, before any truncation (R188). -/
theorem sum_partialProducts (x y : U128) : (allDigitPairs.map (partialProduct x y)).sum = val x * val y := by
  have row (i : Nat) : ((List.range 4).map fun j => partialProduct x y (i, j)).sum =
      mulDigit x i * 2 ^ (32 * i) * val y := by
    simp only [partialProduct_eq, List.sum_map_mul_left, sum_four_digits]
  calc (allDigitPairs.map (partialProduct x y)).sum
      = ((List.range 4).map fun i => ((List.range 4).map fun j => partialProduct x y (i, j)).sum).sum := by
        simp only [allDigitPairs, List.flatMap_def, List.map_flatten, List.map_map, List.sum_flatten,
          Function.comp_def]
    _ = val x * val y := by simp only [row, List.sum_map_mul_right, sum_four_digits]

/-- Each position adds its truncated partial product (R188). -/
theorem schoolbookMul_cons (p : Nat × Nat) (ps : List (Nat × Nat)) (x y : U128) :
    schoolbookMul (p :: ps) x y = trunc128 (partialProduct x y p) + schoolbookMul ps x y := by
  rw [schoolbookMul, List.map_cons, List.sum_cons]
  exact BitVec.ofNat_add ..

/-- A partial product at place 4 or above is a multiple of 2^128, so that its truncation is zero (R188). -/
theorem trunc128_partialProduct {p : Nat × Nat} (h : ¬p.1 + p.2 ≤ 3) (x y : U128) :
    trunc128 (partialProduct x y p) = 0#128 := by
  have place : 2 ^ 128 ∣ partialProduct x y p := Dvd.dvd.mul_left (Nat.pow_dvd_pow 2 (by omega)) _
  exact trunc128_eq (Nat.mod_eq_zero_of_dvd place).symm

/-- The partial products at place 4 and above do not matter, at whatever positions the others are taken (R188). -/
theorem schoolbookMul_filter (pairs : List (Nat × Nat)) (x y : U128) :
    schoolbookMul (pairs.filter fun p => p.1 + p.2 ≤ 3) x y = schoolbookMul pairs x y := by
  induction pairs with
  | nil => rfl
  | cons p ps ih =>
    by_cases h : p.1 + p.2 ≤ 3
    · rw [List.filter_cons_of_pos (by simpa using h), schoolbookMul_cons, schoolbookMul_cons, ih]
    · rw [List.filter_cons_of_neg (by simpa using h), schoolbookMul_cons, trunc128_partialProduct h,
        BitVec.zero_add, ih]

/-- Schoolbook multiplication at all sixteen positions gives the value MUL writes (R187, R188). -/
theorem schoolbookMul_allDigitPairs (x y : U128) : schoolbookMul allDigitPairs x y = trunc128 (val x * val y) := by
  rw [schoolbookMul, sum_partialProducts]

/-- Settles O34: the sixteen partial products sum to the product, and those at place 4 and above vanish modulo 2^128. -/
theorem multiplyByDigits : Obligations.MultiplyByDigits := by
  intro s d a b h
  refine completesWith_of_command rfl h ⟨?_, ?_, ?_, binary_changesOnly ..⟩
  · rw [binary_getU, val_trunc128]
  · rw [binary_getU, schoolbookMul_allDigitPairs]
  · rw [binary_getU, schoolbookMul_filter, schoolbookMul_allDigitPairs]

end Sys2Proof.Machine
end

section
/-! The divider (45_divide.md): the quotient and the remainder are exact, DIVMOD writes the same two, and the bit length
is the exponent of the least power of two above the value. -/

namespace Sys2Proof.Machine

/-! ## DIV, MOD and DIVMOD (R210 to R214) -/

/-- The quotient is never truncated (R214). -/
@[simp] theorem val_quotient (x y : U128) : val (quotient x y) = val x / val y := by
  rw [quotient, val_trunc128, Nat.mod_eq_of_lt ((Nat.div_le_self ..).trans_lt (val_lt x))]

/-- The remainder is never truncated (R214). -/
@[simp] theorem val_remainder (x y : U128) : val (remainder x y) = val x % val y := by
  rw [remainder, val_trunc128, Nat.mod_eq_of_lt ((Nat.mod_le ..).trans_lt (val_lt x))]

/-- The dividend is quotient times divisor plus remainder (R214). -/
theorem quotient_mul_add_remainder (x y : U128) :
    val (quotient x y) * val y + val (remainder x y) = val x := by
  rw [val_quotient, val_remainder, Nat.div_add_mod']

/-- The remainder is below a divisor that is not zero (R214). -/
theorem remainder_lt (x : U128) {y : U128} (hy : val y ≠ 0) : val (remainder x y) < val y := by
  rw [val_remainder]
  exact Nat.mod_lt _ (Nat.pos_of_ne_zero hy)

/-- With no error held and a divisor that is not zero, a command of the divider has its effect (R213). -/
theorem command_dividing {s : State} {rb : Reg} (h : s.err = .none) (hb : val (s.getU rb) ≠ 0)
    (effect : State → State) : command (dividing rb effect) s = .next (effect s) := by
  rw [command_of_clear h, dividing_nonzero hb]

/-- With no error held, different destinations and a divisor that is not zero, DIVMOD writes both results (R212). -/
theorem exec_divmod {s : State} {rq rr rb : Reg} (h : s.err = .none) (hne : rq ≠ rr) (hb : val (s.getU rb) ≠ 0)
    (ra : Reg) : exec (.divmod rq rr ra rb) s = .next (writeBoth rq rr ra rb s) := by
  have divides : divmodEffect rq rr ra rb = dividing rb (writeBoth rq rr ra rb) := funext fun _ => if_neg hne
  rw [exec, execDivmod, divides, command_dividing h hb]

/-- The first destination of DIVMOD holds the quotient of the old sources (R212). -/
theorem writeBoth_getU_quotient {rq rr : Reg} (hne : rq ≠ rr) (ra rb : Reg) (s : State) :
    (writeBoth rq rr ra rb s).getU rq = quotient (s.getU ra) (s.getU rb) := by
  rw [writeBoth, State.getU_setU_of_ne _ _ _ _ hne, State.getU_setU_self]

/-- The second destination of DIVMOD holds the remainder of the old sources (R212). -/
theorem writeBoth_getU_remainder (rq rr ra rb : Reg) (s : State) :
    (writeBoth rq rr ra rb s).getU rr = remainder (s.getU ra) (s.getU rb) :=
  State.getU_setU_self ..

/-- DIVMOD changes its two destinations only (R212). -/
theorem writeBoth_changesOnly (rq rr ra rb : Reg) (s : State) :
    ChangesOnly [rq, rr] s (writeBoth rq rr ra rb s) :=
  (setU_changesOnly s rq _ _ (by simp)).trans (setU_changesOnly _ rr _ _ (by simp))

/-- Settles O36: DIV writes the quotient and MOD the remainder, and each is the witness the other's clause asks for. -/
theorem quotientAndRemainder : Obligations.QuotientAndRemainder := by
  intro s d a b h hb _ _
  have division := quotient_mul_add_remainder (s.getU a) (s.getU b)
  have below := remainder_lt (s.getU a) hb
  refine ⟨⟨_, command_dividing h hb _, ?_, binary_changesOnly ..⟩,
    ⟨_, command_dividing h hb _, ?_, ?_, binary_changesOnly ..⟩⟩ <;> rw [binary_getU]
  · exact ⟨_, division.symm, below⟩
  · exact ⟨_, division.symm⟩
  · exact below

/-- Settles O37: DIVMOD writes the very values that DIV and MOD write. -/
theorem divmodWritesBoth : Obligations.DivmodWritesBoth := by
  intro s q r a b h hne hb
  refine ⟨_, exec_divmod h hne hb a, ?_⟩
  beta_reduce
  rw [writeBoth_getU_quotient hne, writeBoth_getU_remainder]
  exact ⟨(quotient_mul_add_remainder _ _).symm, remainder_lt _ hb, writeBoth_changesOnly q r a b s,
    ⟨_, command_dividing h hb _, binary_getU ..⟩, ⟨_, command_dividing h hb _, binary_getU ..⟩⟩

/-- Quotient times divisor plus remainder is the dividend also when each step is reduced modulo 2^128 (R217). -/
theorem trunc128_mul_add_remainder (x y : U128) :
    trunc128 (val (trunc128 (val (quotient x y) * val y)) + val (remainder x y)) = x := by
  apply trunc128_eq
  rw [val_trunc128, Nat.mod_add_mod, quotient_mul_add_remainder, Nat.mod_eq_of_lt (val_lt x)]

/-- With no error held MUL writes the truncated product (44_arith.md R187). -/
theorem exec_mul {s : State} (h : s.err = .none) (rd ra rb : Reg) :
    exec (.mul rd ra rb) s = .next (binary (fun x y => trunc128 (val x * val y)) rd ra rb s) :=
  command_of_clear h _

/-- With no error held ADD writes the truncated sum (44_arith.md R180). -/
theorem exec_add {s : State} (h : s.err = .none) (rd ra rb : Reg) :
    exec (.add rd ra rb) s = .next (binary (fun x y => trunc128 (val x + val y)) rd ra rb s) :=
  command_of_clear h _

/-- Settles O40: DIVMOD keeps the divisor and MUL the remainder, so that ADD sums the two parts of the dividend. -/
theorem divmodMulAddRestoresDividend : Obligations.DivmodMulAddRestoresDividend := by
  intro s a b q r p h hb hqr hbq hbr hpr
  have divisor : (writeBoth q r a b s).getU b = s.getU b :=
    (writeBoth_changesOnly q r a b s).regs b (by simp [hbq, hbr])
  have clear : (writeBoth q r a b s).err = .none := (writeBoth_changesOnly q r a b s).err.trans h
  refine ⟨_, _, _, exec_divmod h hqr hb a, exec_mul clear p q b,
    exec_add ((binary_changesOnly ..).err.trans clear) p p r, ?_⟩
  rw [binary_getU, binary_getU, (binary_changesOnly ..).regs r (by simp [hpr.symm]), divisor,
    writeBoth_getU_quotient hqr, writeBoth_getU_remainder, trunc128_mul_add_remainder]

/-! ## BITLEN (R216) -/

/-- The bit length is the least `n` with the value below 2^n (R216). -/
theorem bitLength_le_iff (v n : Nat) : bitLength v ≤ n ↔ v < 2 ^ n := by
  unfold bitLength
  split
  · next zero => simp [zero]
  · next nonzero => rw [Nat.succ_le_iff, Nat.log2_lt nonzero]

/-- Only 0 has no significant bit (R216). -/
theorem bitLength_eq_zero_iff (v : Nat) : bitLength v = 0 ↔ v = 0 := by
  rw [← Nat.le_zero, bitLength_le_iff, Nat.pow_zero, Nat.lt_one_iff]

/-- Dropping the lowest `k` bits takes `k` from the bit length. -/
theorem bitLength_div_two_pow (v k : Nat) : bitLength (v / 2 ^ k) = bitLength v - k := by
  refine eq_of_forall_ge_iff fun n => ?_
  rw [bitLength_le_iff, Nat.div_lt_iff_lt_mul (Nat.two_pow_pos k), ← Nat.pow_add, ← bitLength_le_iff,
    Nat.sub_le_iff_le_add]

/-- The limb-by-limb scan gives the bit length of the value: a high limb that is not zero holds all but the lowest 64
of the significant bits (R216). -/
theorem bitLengthByLimbs_eq (x : U128) : bitLengthByLimbs x = bitLength (val x) := by
  have limbs := val_eq_limbs x
  unfold bitLengthByLimbs
  split
  · next nonzero =>
    have low := (lowLimb x).isLt
    have high : (highLimb x).toNat = val x / 2 ^ 64 := by omega
    have significant : bitLength (highLimb x).toNat ≠ 0 := fun none =>
      nonzero (BitVec.eq_of_toNat_eq ((bitLength_eq_zero_iff _).1 none))
    rw [high, bitLength_div_two_pow] at significant ⊢
    omega
  · next zero => simp [limbs, not_not.1 zero]

/-- The value BITLEN writes is never truncated: a bit length is at most 128 (R216). -/
theorem val_trunc128_bitLength (x : U128) : val (trunc128 (bitLength (val x))) = bitLength (val x) := by
  have bound : bitLength (val x) ≤ 128 := (bitLength_le_iff ..).2 (val_lt x)
  rw [val_trunc128, Nat.mod_eq_of_lt (by omega)]

/-- Settles O41: the bounds say that the bit length is the least exponent above the value, and the scan computes it. -/
theorem bitLengthBoundsValue : Obligations.BitLengthBoundsValue := by
  intro s d a h
  refine completesWith_of_command rfl h ?_
  rw [unary_getU, val_trunc128_bitLength, bitLengthByLimbs_eq]
  refine ⟨(bitLength_le_iff ..).2 (val_lt _), (bitLength_le_iff ..).1 le_rfl, ?_, rfl, unary_changesOnly ..⟩
  rcases Nat.eq_zero_or_pos (bitLength (val (s.getU a))) with zero | pos
  · exact .inl zero
  · right
    rw [← Nat.not_lt, ← bitLength_le_iff]
    omega

end Sys2Proof.Machine
end

section
/-! The radix renderer (46_string.md): the loop of R242 computes the base's digits (Mathlib's `Nat.digits`, least
significant first), and padding leaves what they denote. -/

namespace Sys2Proof.Machine

/-! ## The base check (R245) -/

/-- The base check is the range of R245. -/
theorem badBase_iff (base : BitVec 5) : badBase base = true ↔ base.toNat < 2 ∨ 16 < base.toNat := by
  simp [badBase]

/-- With a bad base STR raises INVALID_ARG, before it reads the value (R245). -/
theorem strEffect_of_badBase {base : BitVec 5} (bad : base.toNat < 2 ∨ 16 < base.toNat) (ra : Reg)
    (minlen : BitVec 8) (s : State) : strEffect ra base minlen s = s.raise .invalidArg := by
  rw [strEffect, if_pos ((badBase_iff base).2 bad)]

/-- With a legal base STR stores the padded digits of the value (R240). -/
theorem strEffect_of_legalBase {base : BitVec 5} (low : 2 ≤ base.toNat) (high : base.toNat ≤ 16) (ra : Reg)
    (minlen : BitVec 8) (s : State) : strEffect ra base minlen s =
      s.storeText (padTo minlen.toNat (digits (val (s.getU ra)) base.toNat)) := by
  rw [strEffect, if_neg (by rw [badBase_iff]; omega)]

/-- Settles O43: with no error held STR has its effect, and the base check comes first in it. -/
theorem strRejectsBadBase : Obligations.StrRejectsBadBase := fun s a base minlen h bad =>
  calc exec (.str a base minlen) s
      = .next (strEffect a base minlen s) := command_of_clear h _
    _ = .next (s.raise .invalidArg) := by rw [strEffect_of_badBase bad]

/-! ## The alphabet (R241) -/

/-- The character of a digit value is in the alphabet and has that value (R241). -/
theorem digitChar_spec : ∀ k < 16, IsDigitOf (k + 1) (digitChar k) ∧ digitValue (digitChar k) = k := by
  unfold IsDigitOf
  decide

/-- The character of a digit value below the base is a digit of the base. -/
theorem isDigitOf_digitChar {base k : Nat} (high : base ≤ 16) (hk : k < base) : IsDigitOf base (digitChar k) := by
  obtain ⟨⟨inAlphabet, -⟩, value⟩ := digitChar_spec k (by omega)
  exact ⟨inAlphabet, value.trans_lt hk⟩

/-- The pad character is a digit of every base (R241). -/
theorem isDigitOf_padChar {base : Nat} (low : 0 < base) (high : base ≤ 16) : IsDigitOf base padChar :=
  isDigitOf_digitChar high low

/-- The pad character is the digit 0 (R241). -/
@[simp] theorem digitValue_padChar : digitValue padChar = 0 := by decide

/-- The value of a text by its last character. -/
theorem textValue_concat (base : Nat) (t : List Byte) (c : Byte) :
    textValue base (t ++ [c]) = textValue base t * base + digitValue c := by
  simp [textValue]

/-! ## Padding (R243) -/

/-- The padded length is the minimum or the text's own, whichever is more (R243). -/
@[simp] theorem length_padTo (len : Nat) (t : List Byte) : (padTo len t).length = max len t.length := by
  simp only [padTo, List.length_append, List.length_replicate]
  omega

/-- Padding adds pad characters only. -/
theorem mem_padTo {len : Nat} {t : List Byte} {c : Byte} (h : c ∈ padTo len t) : c = padChar ∨ c ∈ t :=
  (List.mem_append.1 h).imp_left List.eq_of_mem_replicate

/-- A padded text of digits is a text of digits. -/
theorem isDigitOf_of_mem_padTo {base len : Nat} {t : List Byte} (low : 0 < base) (high : base ≤ 16)
    (ht : ∀ c ∈ t, IsDigitOf base c) : ∀ c ∈ padTo len t, IsDigitOf base c := by
  intro c hc
  rcases mem_padTo hc with rfl | hc
  · exact isDigitOf_padChar low high
  · exact ht c hc

/-- A leading pad character counts for nothing. -/
@[simp] theorem textValue_padChar_cons (base : Nat) (t : List Byte) :
    textValue base (padChar :: t) = textValue base t := by
  simp [textValue]

/-- A padded text denotes what the text denotes. -/
@[simp] theorem textValue_padTo (base len : Nat) (t : List Byte) : textValue base (padTo len t) = textValue base t := by
  rw [padTo]
  induction len - t.length with
  | zero => rfl
  | succ k ih => rw [List.replicate_succ, List.cons_append, textValue_padChar_cons, ih]

/-! ## The digits of a value (R242) -/

/-- The text of digit values given least significant first, as `Nat.digits` gives them. -/
def digitText (ds : List Nat) : List Byte := (ds.map digitChar).reverse

@[simp] theorem digitText_nil : digitText [] = [] := rfl

/-- The least significant digit is the last character. -/
theorem digitText_cons (d : Nat) (ds : List Nat) : digitText (d :: ds) = digitText ds ++ [digitChar d] := by
  simp [digitText]

@[simp] theorem length_digitText (ds : List Nat) : (digitText ds).length = ds.length := by
  simp [digitText]

/-- The text of digits below the base consists of digits of the base. -/
theorem isDigitOf_of_mem_digitText {base : Nat} {ds : List Nat} (high : base ≤ 16) (below : ∀ d ∈ ds, d < base) :
    ∀ c ∈ digitText ds, IsDigitOf base c := by
  intro c hc
  obtain ⟨d, hd, rfl⟩ := List.mem_map.1 (List.mem_reverse.1 hc)
  exact isDigitOf_digitChar high (below d hd)

/-- The text of a list of digits denotes the number the list denotes. -/
theorem textValue_digitText (base : Nat) {ds : List Nat} (below : ∀ d ∈ ds, d < 16) :
    textValue base (digitText ds) = Nat.ofDigits base ds := by
  induction ds with
  | nil => rfl
  | cons d ds ih =>
    obtain ⟨hd, hds⟩ := List.forall_mem_cons.1 below
    rw [digitText_cons, textValue_concat, ih hds, (digitChar_spec d hd).2, Nat.ofDigits_cons, Nat.add_comm,
      Nat.mul_comm]

/-- The loop of R242 prepends the value's digits, when its rounds suffice. -/
theorem digitsLoop_eq {base : Nat} (low : 1 < base) : ∀ {fuel v : Nat} (acc : List Byte), v < base ^ fuel →
    digitsLoop fuel v base acc = digitText (Nat.digits base v) ++ acc := by
  intro fuel
  induction fuel with
  | zero =>
    intro v acc enough
    obtain rfl : v = 0 := by simpa using enough
    simp [digitsLoop]
  | succ fuel ih =>
    intro v acc enough
    rw [digitsLoop]
    split
    · next zero => simp [zero]
    · next nonzero =>
      have quotient : v / base < base ^ fuel := Nat.div_lt_of_lt_mul (by rwa [← Nat.pow_succ'])
      rw [ih _ quotient, Nat.digits_def' low (Nat.pos_of_ne_zero nonzero), digitText_cons, List.append_assoc,
        List.singleton_append]

/-- The 128 rounds are enough: every base has at least the digits of base 2 (R242). -/
theorem val_lt_base_pow {base : Nat} (low : 1 < base) (x : U128) : val x < base ^ 128 :=
  (val_lt x).trans_le (Nat.pow_le_pow_left low 128)

/-- A value is rendered as its digits, padded to one character: zero has none of its own (R242). -/
theorem digits_eq_padTo {base : Nat} (low : 1 < base) (x : U128) :
    digits (val x) base = padTo 1 (digitText (Nat.digits base (val x))) := by
  rw [digits]
  split
  · next zero =>
    rw [zero, Nat.digits_zero]
    rfl
  · next nonzero =>
    have nonempty : 1 ≤ (Nat.digits base (val x)).length :=
      List.length_pos_iff.2 (Nat.digits_ne_nil_iff_ne_zero.2 nonzero)
    rw [digitsLoop_eq low [] (val_lt_base_pow low x), List.append_nil, padTo, length_digitText,
      Nat.sub_eq_zero_of_le nonempty, List.replicate_zero, List.nil_append]

/-- The digits of a value are digits of the base. -/
theorem isDigitOf_of_mem_digits {base : Nat} (low : 1 < base) (high : base ≤ 16) (x : U128) :
    ∀ c ∈ digits (val x) base, IsDigitOf base c := by
  rw [digits_eq_padTo low]
  exact isDigitOf_of_mem_padTo (by omega) high
    (isDigitOf_of_mem_digitText high fun d hd => Nat.digits_lt_base low hd)

/-- The digits of a value denote it. -/
theorem textValue_digits {base : Nat} (low : 1 < base) (high : base ≤ 16) (x : U128) :
    textValue base (digits (val x) base) = val x := by
  have below : ∀ d ∈ Nat.digits base (val x), d < 16 := fun d hd => (Nat.digits_lt_base low hd).trans_le high
  rw [digits_eq_padTo low, textValue_padTo, textValue_digitText base below, Nat.ofDigits_digits]

/-- `n` characters, at least one, hold the digits of a value just when the value is below `base ^ n`. -/
theorem length_digits_le_iff {base n : Nat} (low : 1 < base) (hn : 1 ≤ n) (x : U128) :
    (digits (val x) base).length ≤ n ↔ val x < base ^ n := by
  rw [digits_eq_padTo low, length_padTo, length_digitText, max_le_iff, Nat.digits_length_le_iff low]
  exact and_iff_right hn

/-- A value has at least one digit. -/
theorem one_le_length_digits {base : Nat} (low : 1 < base) (x : U128) : 1 ≤ (digits (val x) base).length := by
  rw [digits_eq_padTo low, length_padTo]
  exact le_max_left ..

/-- The number of digits is least: one fewer would not hold the value, unless there is only one. -/
theorem length_digits_least {base : Nat} (low : 1 < base) (x : U128) :
    (digits (val x) base).length = 1 ∨ base ^ ((digits (val x) base).length - 1) ≤ val x := by
  rw [or_iff_not_imp_left, ← Nat.not_lt]
  intro several fewer
  have nonempty := one_le_length_digits low x
  have short := (length_digits_le_iff low (by omega) x).2 fewer
  omega

/-! ## STR (R240, R244) -/

/-- A stored text of at most 255 characters has its length in STRLEN (R244). -/
theorem storeText_strLen_toNat {t : List Byte} (fits : t.length < 256) (s : State) :
    (s.storeText t).strLen.toNat = t.length := by
  rw [State.storeText_strLen, BitVec.toNat_ofNat, Nat.mod_eq_of_lt fits]

/-- A stored text of at most 255 characters is the text STRBUF and STRLEN hold (R244). -/
theorem storeText_text {t : List Byte} (fits : t.length < 256) (s : State) : (s.storeText t).text = t := by
  rw [State.text, storeText_strLen_toNat fits]
  refine List.ext_getElem (by simp) fun i _ hi => ?_
  rw [List.getElem_map, List.getElem_range, storeText_strByte, List.getD_eq_getElem _ _ hi]

/-- Every byte past a stored text is 0x00 (R244). -/
theorem storeText_strByte_past {t : List Byte} {i : Nat} (past : t.length ≤ i) (s : State) :
    (s.storeText t).strByte i = 0x00#8 := by
  rw [storeText_strByte, List.getD_eq_default _ _ past]

/-- The padded digits of a value fit in STRBUF and their number in STRLEN (R243). -/
theorem length_rendered_lt {base : Nat} (low : 1 < base) (x : U128) (minlen : BitVec 8) :
    (padTo minlen.toNat (digits (val x) base)).length < 256 := by
  have own : (digits (val x) base).length ≤ 128 :=
    (length_digits_le_iff low (by decide) x).2 (val_lt_base_pow low x)
  have least := minlen.isLt
  rw [length_padTo]
  omega

/-- Settles O42: STR stores the padded digits of the value. The digits denote the value and are as few as do, padding
keeps both what they denote and their alphabet, and the stored text is read back whole. -/
theorem strRendersValue : Obligations.StrRendersValue := by
  intro s a base minlen h low high
  refine completesWith_of_command (effect := strEffect a base minlen) rfl h ?_
  have fits := length_rendered_lt low (s.getU a) minlen
  rw [strEffect_of_legalBase low high, storeText_text fits, storeText_strLen_toNat fits]
  refine ⟨?alphabet, ?value, ⟨_, one_le_length_digits low (s.getU a), ?above, length_digits_least low _, ?length⟩,
    fun i past => storeText_strByte_past past s, storeText_changesOnlyText ..⟩
  case alphabet => exact isDigitOf_of_mem_padTo (by omega) high (isDigitOf_of_mem_digits low high _)
  case value => rw [textValue_padTo, textValue_digits low high]
  case above => exact (length_digits_le_iff low (one_le_length_digits low _) _).1 le_rfl
  case length => rw [length_padTo, Nat.max_comm]

end Sys2Proof.Machine
end

section
/-! The decoder and the encoder (30_encoding.md R82 to R90), format by format: a format decodes the words it encodes,
and a word that a format's decoder accepts is the encoding of its fields. -/

namespace Sys2Proof

/-! ## The parts of IMM (R82, R84) -/

/-- A part of a word within IMM is that part of the immediate. -/
theorem extractLsb'_immField {start len : Nat} (h : start + len ≤ 15) (c : CmdWord) :
    c.extractLsb' start len = (immField c).extractLsb' start len := by
  ext i hi
  have inside : start + i < 15 := by omega
  simp [immField, inside]

/-- A part of a packed word within IMM is that part of the immediate packed. -/
theorem extractLsb'_packWord {start len : Nat} (h : start + len ≤ 15) (op : BitVec 5) (rd ra rb rc : BitVec 3)
    (imm : BitVec 15) : (packWord op rd ra rb rc imm).extractLsb' start len = imm.extractLsb' start len := by
  rw [extractLsb'_immField h, immField_packWord]

/-- The immediate that holds COND only reads back as COND, the rest of IMM zero. -/
theorem compareImm_parts (cond : BitVec 3) :
    (cond.setWidth 15).extractLsb' 0 3 = cond ∧ (cond.setWidth 15).extractLsb' 3 12 = 0 := by
  revert cond
  decide

/-- The immediate that holds S and W only reads back as them, the rest of IMM zero. -/
theorem rxImm_parts (sign : BitVec 1) (w : BitVec 3) :
    let imm : BitVec 15 := sign.setWidth 15 <<< 3 ||| w.setWidth 15
    imm.extractLsb' 0 3 = w ∧ imm.extractLsb' 3 1 = sign ∧ imm.extractLsb' 4 11 = 0 := by
  revert sign w
  decide

/-- The immediate that holds BASE and MINLEN only reads back as them, the rest of IMM zero. -/
theorem strImm_parts (base : BitVec 5) (minlen : BitVec 8) :
    let imm : BitVec 15 := base.setWidth 15 <<< 8 ||| minlen.setWidth 15
    imm.extractLsb' 8 5 = base ∧ imm.extractLsb' 0 8 = minlen ∧ imm.extractLsb' 13 2 = 0 := by
  refine ⟨?_, ?_, ?_⟩ <;> ext i hi <;> simp <;> grind

/-- IMM is its COND when the rest of it is zero (format RRC). -/
theorem immField_of_compare {c : CmdWord} (rest : c.extractLsb' 3 12 = 0) :
    (condField c).setWidth 15 = immField c := by
  ext i hi
  have := congrArg (fun b => b.getLsbD (i - 3)) rest
  simp [condField, immField] at this ⊢
  grind

/-- IMM is its S and its W when the rest of it is zero (format RX). -/
theorem immField_of_rx {c : CmdWord} (rest : c.extractLsb' 4 11 = 0) :
    (signField c).setWidth 15 <<< 3 ||| (widthField c).setWidth 15 = immField c := by
  ext i hi
  have := congrArg (fun b => b.getLsbD (i - 4)) rest
  simp [signField, widthField, immField] at this ⊢
  grind

/-- IMM is its BASE and its MINLEN when the rest of it is zero (format S). -/
theorem immField_of_str {c : CmdWord} (rest : c.extractLsb' 13 2 = 0) :
    (baseField c).setWidth 15 <<< 8 ||| (minlenField c).setWidth 15 = immField c := by
  ext i hi
  have := congrArg (fun b => b.getLsbD (i - 13)) rest
  simp [baseField, minlenField, immField] at this ⊢
  grind

/-! ## Width codes (R85) -/

/-- The reserved width codes are 5, 6 and 7. -/
theorem toWidth_eq_none_iff (b : BitVec 3) : toWidth b = none ↔ 5 ≤ b.toNat := by
  revert b
  decide

/-- The code of bool is 0. -/
theorem toWidth_eq_bool_iff (b : BitVec 3) : toWidth b = some .bool ↔ b = 0 := by
  revert b
  decide

/-- A legal code is the code of the width it stands for. -/
theorem ofWidth_of_toWidth {b : BitVec 3} {w : Width} (h : toWidth b = some w) : ofWidth w = b := by
  unfold toWidth at h
  split at h <;> cases h <;> rfl

/-! ## A format decodes the words it encodes -/

section DecodeEncode

variable (op : BitVec 5) (rd ra rb : Reg) (signed : Bool) (w : Width) (cond : BitVec 3)

@[simp] theorem opField_encodeRR : opField (encodeRR op rd ra) = op := opField_packWord ..
@[simp] theorem opField_encodeRRR : opField (encodeRRR op rd ra rb) = op := opField_packWord ..
@[simp] theorem opField_encodeRX : opField (encodeRX op rd ra signed w) = op := opField_packWord ..
@[simp] theorem opField_encodeCompare : opField (encodeCompare cond rd ra rb) = 0x0B#5 := opField_packWord ..

@[simp] theorem decodeRR_encodeRR (k : Reg → Reg → Instr) : decodeRR (encodeRR op rd ra) k = .ok (k rd ra) := by
  simp [decodeRR, encodeRR]

@[simp] theorem decodeRRR_encodeRRR (k : Reg → Reg → Reg → Instr) :
    decodeRRR (encodeRRR op rd ra rb) k = .ok (k rd ra rb) := by
  simp [decodeRRR, encodeRRR]

/-- The condition code of an encoded comparison, and the rest of its IMM. -/
theorem encodeCompare_imm : condField (encodeCompare cond rd ra rb) = cond ∧
    (encodeCompare cond rd ra rb).extractLsb' 3 12 = 0 := by
  rw [condField, encodeCompare, extractLsb'_packWord (by decide), extractLsb'_packWord (by decide)]
  exact compareImm_parts cond

/-- W and S of an encoded conversion, and the rest of its IMM. -/
theorem encodeRX_imm : widthField (encodeRX op rd ra signed w) = ofWidth w ∧
    signField (encodeRX op rd ra signed w) = BitVec.ofBool signed ∧
    (encodeRX op rd ra signed w).extractLsb' 4 11 = 0 := by
  rw [widthField, signField, encodeRX, extractLsb'_packWord (by decide), extractLsb'_packWord (by decide),
    extractLsb'_packWord (by decide)]
  exact rxImm_parts ..

/-- BASE and MINLEN of an encoded STR, and the rest of its IMM. -/
theorem encode_str_imm (base : BitVec 5) (minlen : BitVec 8) :
    baseField (encode (.str ra base minlen)) = base ∧ minlenField (encode (.str ra base minlen)) = minlen ∧
    (encode (.str ra base minlen)).extractLsb' 13 2 = 0 := by
  rw [baseField, minlenField, encode, extractLsb'_packWord (by decide), extractLsb'_packWord (by decide),
    extractLsb'_packWord (by decide)]
  exact strImm_parts ..

variable {rd ra signed w} in
theorem decodeWiden_encodeRX (legal : (Instr.widen rd ra signed w).wellFormed = true) :
    decodeWiden (encodeRX op rd ra signed w) = .ok (.widen rd ra signed w) := by
  obtain ⟨hwidth, hsign, hrest⟩ := encodeRX_imm op rd ra signed w
  have hsigned : (signField (encodeRX op rd ra signed w) == 1#1) = signed := by
    rw [hsign]
    cases signed <;> rfl
  have notSignedBool : (signed && w == .bool) = false := by
    simpa only [Instr.wellFormed, Bool.not_eq_true'] using legal
  simp only [decodeWiden, hwidth, hsigned, hrest, toWidth_ofWidth, notSignedBool]
  simp [encodeRX]

theorem decodeNarrow_encodeRX : decodeNarrow (encodeRX op rd ra false w) = .ok (.narrow rd ra w) := by
  obtain ⟨hwidth, hsign, hrest⟩ := encodeRX_imm op rd ra false w
  simp only [decodeNarrow, hwidth, hsign, hrest, toWidth_ofWidth]
  simp [encodeRX]

theorem decodeDivmod_encode {rq rr : Reg} (differ : rq ≠ rr) :
    decodeDivmod (encode (.divmod rq rr ra rb)) = .ok (.divmod rq rr ra rb) := by
  have codes : ofReg rq ≠ ofReg rr := fun e => differ (congrArg toReg e)
  simp [decodeDivmod, encode, codes]

theorem decodeStr_encode (base : BitVec 5) (minlen : BitVec 8) :
    decodeStr (encode (.str ra base minlen)) = .ok (.str ra base minlen) := by
  obtain ⟨hbase, hminlen, hrest⟩ := encode_str_imm ra base minlen
  simp only [decodeStr, hbase, hminlen, hrest]
  simp [encode]

end DecodeEncode

/-- Settles O2: the opcode of the encoding leads to the format's decoder, which reads the operands back. -/
theorem decodeOfEncode : Obligations.DecodeOfEncode := by
  intro i legal
  cases i with
  | cpy | mvz | not | neg | inc | dec | bitlen => simp [encode, decode]
  | and | or | xor | shl | shr | add | sub | mul | div | mod => simp [encode, decode]
  | ceq | cne | clt | cgt | cle | cge =>
    simp only [encode, decode, opField_encodeCompare, decodeCompare, encodeCompare_imm]
    simp [encodeCompare]
  | widen rd ra signed w => simp [encode, decode, decodeWiden_encodeRX _ legal]
  | narrow rd ra w => simp [encode, decode, decodeNarrow_encodeRX]
  | divmod rq rr ra rb =>
    rw [decode, encode, opField_packWord]
    exact decodeDivmod_encode ra rb (bne_iff_ne.1 legal)
  | str ra base minlen =>
    rw [decode, encode, opField_packWord]
    exact decodeStr_encode ra base minlen

/-! ## A word is the encoding of its fields -/

section EncodeFields

variable {c : CmdWord} {op : BitVec 5}

theorem encodeRR_fields (hop : opField c = op) (hrb : rbField c = 0) (hrc : rcField c = 0) (himm : immField c = 0) :
    encodeRR op (toReg (rdField c)) (toReg (raField c)) = c := by
  conv_rhs => rw [← packWord_fields c, hop, hrb, hrc, himm]
  rfl

theorem encodeRRR_fields (hop : opField c = op) (hrc : rcField c = 0) (himm : immField c = 0) :
    encodeRRR op (toReg (rdField c)) (toReg (raField c)) (toReg (rbField c)) = c := by
  conv_rhs => rw [← packWord_fields c, hop, hrc, himm]
  rfl

theorem encodeCompare_fields (hop : opField c = 0x0B#5) (hrc : rcField c = 0) (rest : c.extractLsb' 3 12 = 0) :
    encodeCompare (condField c) (toReg (rdField c)) (toReg (raField c)) (toReg (rbField c)) = c := by
  conv_rhs => rw [← packWord_fields c, hop, hrc, ← immField_of_compare rest]
  rfl

theorem encodeRX_fields {w : Width} (hop : opField c = op) (hrb : rbField c = 0) (hrc : rcField c = 0)
    (rest : c.extractLsb' 4 11 = 0) (hw : toWidth (widthField c) = some w) :
    encodeRX op (toReg (rdField c)) (toReg (raField c)) (signField c == 1#1) w = c := by
  have hsign : ∀ sign : BitVec 1, BitVec.ofBool (sign == 1#1) = sign := by decide
  conv_rhs => rw [← packWord_fields c, hop, hrb, hrc, ← immField_of_rx rest]
  rw [encodeRX, hsign, ofWidth_of_toWidth hw]
  rfl

theorem encode_divmod_fields (hop : opField c = 0x14#5) (himm : immField c = 0) :
    encode (.divmod (toReg (rdField c)) (toReg (rcField c)) (toReg (raField c)) (toReg (rbField c))) = c := by
  conv_rhs => rw [← packWord_fields c, hop, himm]
  rfl

theorem encode_str_fields (hop : opField c = 0x16#5) (hrd : rdField c = 0) (hrb : rbField c = 0) (hrc : rcField c = 0)
    (rest : c.extractLsb' 13 2 = 0) : encode (.str (toReg (raField c)) (baseField c) (minlenField c)) = c := by
  conv_rhs => rw [← packWord_fields c, hop, hrd, hrb, hrc, ← immField_of_str rest]
  rfl

end EncodeFields

/-! ## The words a format's decoder accepts -/

/-- The command is well formed and its encoding is the word. -/
def IsWordOf (c : CmdWord) (i : Instr) : Prop := i.wellFormed = true ∧ encode i = c

section DecodedWords

variable {c : CmdWord} {op : BitVec 5} {i : Instr}

theorem isWordOf_of_decodeRR {k : Reg → Reg → Instr} (hk : ∀ rd ra, IsWordOf (encodeRR op rd ra) (k rd ra))
    (hop : opField c = op) (h : decodeRR c k = .ok i) : IsWordOf c i := by
  unfold decodeRR at h
  split at h <;> cases h
  next zero =>
    obtain ⟨hrb, hrc, himm⟩ := zero
    have word := hk (toReg (rdField c)) (toReg (raField c))
    rwa [encodeRR_fields hop hrb hrc himm] at word

theorem isWordOf_of_decodeRRR {k : Reg → Reg → Reg → Instr}
    (hk : ∀ rd ra rb, IsWordOf (encodeRRR op rd ra rb) (k rd ra rb)) (hop : opField c = op)
    (h : decodeRRR c k = .ok i) : IsWordOf c i := by
  unfold decodeRRR at h
  split at h <;> cases h
  next zero =>
    obtain ⟨hrc, himm⟩ := zero
    have word := hk (toReg (rdField c)) (toReg (raField c)) (toReg (rbField c))
    rwa [encodeRRR_fields hop hrc himm] at word

theorem isWordOf_of_decodeCompare (hop : opField c = 0x0B#5) (h : decodeCompare c = .ok i) : IsWordOf c i := by
  simp only [decodeCompare] at h
  split at h
  · next zero =>
    obtain ⟨hrc, rest⟩ := zero
    have word := encodeCompare_fields hop hrc rest
    split at h <;> cases h <;> next hcond => exact ⟨rfl, by rwa [hcond] at word⟩
  · cases h

theorem isWordOf_of_decodeWiden (hop : opField c = 0x03#5) (h : decodeWiden c = .ok i) : IsWordOf c i := by
  simp only [decodeWiden] at h
  split at h
  · next zero =>
    obtain ⟨hrb, hrc, rest⟩ := zero
    split at h
    · cases h
    · next w hw =>
      split at h <;> cases h
      next legal =>
        have wellFormed : (!(signField c == 1#1 && w == .bool)) = true := by
          rw [Bool.eq_false_of_not_eq_true legal]
          rfl
        exact ⟨wellFormed, encodeRX_fields hop hrb hrc rest hw⟩
  · cases h

theorem isWordOf_of_decodeNarrow (hop : opField c = 0x04#5) (h : decodeNarrow c = .ok i) : IsWordOf c i := by
  simp only [decodeNarrow] at h
  split at h
  · next zero =>
    obtain ⟨hrb, hrc, rest, hsign⟩ := zero
    split at h <;> cases h
    next w hw =>
      have word := encodeRX_fields hop hrb hrc rest hw
      rw [hsign] at word
      exact ⟨rfl, word⟩
  · cases h

theorem isWordOf_of_decodeDivmod (hop : opField c = 0x14#5) (h : decodeDivmod c = .ok i) : IsWordOf c i := by
  simp only [decodeDivmod] at h
  split at h
  · next himm =>
    split at h <;> cases h
    next differ => exact ⟨bne_iff_ne.2 fun e => differ (congrArg ofReg e), encode_divmod_fields hop himm⟩
  · cases h

theorem isWordOf_of_decodeStr (hop : opField c = 0x16#5) (h : decodeStr c = .ok i) : IsWordOf c i := by
  simp only [decodeStr] at h
  split at h <;> cases h
  next zero =>
    obtain ⟨hrd, hrb, hrc, rest⟩ := zero
    exact ⟨rfl, encode_str_fields hop hrd hrb hrc rest⟩

end DecodedWords

/-- Settles O3: whatever format the opcode leads to, the word is the encoding of the fields the format's decoder read.
The case `h_n` of a split `decode` is opcode `n`, and `h_23` the reserved opcodes. -/
theorem decodedWordReencodes : Obligations.DecodedWordReencodes := by
  intro c i h
  change IsWordOf c i
  unfold decode at h
  split at h
  case h_3 hop => exact isWordOf_of_decodeWiden hop h
  case h_4 hop => exact isWordOf_of_decodeNarrow hop h
  case h_11 hop => exact isWordOf_of_decodeCompare hop h
  case h_20 hop => exact isWordOf_of_decodeDivmod hop h
  case h_22 hop => exact isWordOf_of_decodeStr hop h
  case h_23 => cases h
  case h_1 hop | h_2 hop | h_8 hop | h_14 hop | h_15 hop | h_16 hop | h_21 hop =>
    exact isWordOf_of_decodeRR (fun _ _ => ⟨rfl, rfl⟩) hop h
  all_goals next hop => exact isWordOf_of_decodeRRR (fun _ _ _ => ⟨rfl, rfl⟩) hop h

/-- Settles O1: the decoder, run on the sixteen words. -/
theorem decodesWordsOfTheSpec : Obligations.DecodesWordsOfTheSpec := by
  unfold Obligations.DecodesWordsOfTheSpec
  decide

end Sys2Proof
end

section
/-! The reserved words (30_encoding.md R88): when a format's decoder refuses a word of its opcode. -/

namespace Sys2Proof

open Machine

/-- A format's check of its must-be-zero fields refuses a word, or what comes after it does. -/
theorem ite_error_iff {P : Prop} [Decidable P] (e : Except IllegalReason Instr) (why : IllegalReason) :
    (∃ why', (if P then e else .error why) = .error why') ↔ ¬P ∨ ∃ why', e = .error why' := by
  split <;> simp [*]

/-- A check that refuses on `P` refuses just then. -/
theorem error_ite_iff {P : Prop} [Decidable P] (i : Instr) (why : IllegalReason) :
    (∃ why', (if P then .error why else .ok i : Except IllegalReason Instr) = .error why') ↔ P := by
  split <;> simp [*]

section Refused

variable {c : CmdWord}

theorem decodeRR_error_iff (k : Reg → Reg → Instr) :
    (∃ why, decodeRR c k = .error why) ↔ rbField c ≠ 0 ∨ rcField c ≠ 0 ∨ immField c ≠ 0 := by
  simp [decodeRR, ite_error_iff, not_and_or, -not_and]

theorem decodeRRR_error_iff (k : Reg → Reg → Reg → Instr) :
    (∃ why, decodeRRR c k = .error why) ↔ rcField c ≠ 0 ∨ immField c ≠ 0 := by
  simp [decodeRRR, ite_error_iff, not_and_or, -not_and]

theorem decodeCompare_error_iff : (∃ why, decodeCompare c = .error why) ↔
    (rcField c ≠ 0 ∨ c.extractLsb' 3 12 ≠ 0) ∨ 6 ≤ (condField c).toNat := by
  rw [← not_and_or, decodeCompare, ite_error_iff]
  refine or_congr_right ?_
  split
  case h_7 =>
    simp only [imp_false, ← BitVec.toNat_inj, BitVec.reduceToNat] at *
    simp only [Except.error.injEq, exists_eq', true_iff]
    omega
  all_goals next hcond => simp [hcond]

theorem decodeWiden_error_iff : (∃ why, decodeWiden c = .error why) ↔
    (rbField c ≠ 0 ∨ rcField c ≠ 0 ∨ c.extractLsb' 4 11 ≠ 0) ∨ 5 ≤ (widthField c).toNat ∨
      (widthField c = 0 ∧ signField c = 1) := by
  rw [← not_and_or, ← not_and_or, decodeWiden, ite_error_iff]
  refine or_congr_right ?_
  rw [← toWidth_eq_none_iff, ← toWidth_eq_bool_iff]
  split
  · next hw => simp [hw]
  · next w hw =>
    rw [error_ite_iff]
    simp [hw, and_comm (b := w = .bool)]

theorem decodeNarrow_error_iff : (∃ why, decodeNarrow c = .error why) ↔
    (rbField c ≠ 0 ∨ rcField c ≠ 0 ∨ c.extractLsb' 4 11 ≠ 0 ∨ signField c ≠ 0) ∨ 5 ≤ (widthField c).toNat := by
  rw [← not_and_or, ← not_and_or, ← not_and_or, decodeNarrow, ite_error_iff, ← toWidth_eq_none_iff]
  refine or_congr_right ?_
  split <;> next hw => simp [hw]

theorem decodeDivmod_error_iff : (∃ why, decodeDivmod c = .error why) ↔ immField c ≠ 0 ∨ rdField c = rcField c := by
  rw [decodeDivmod, ite_error_iff, error_ite_iff]

theorem decodeStr_error_iff : (∃ why, decodeStr c = .error why) ↔
    rdField c ≠ 0 ∨ rbField c ≠ 0 ∨ rcField c ≠ 0 ∨ c.extractLsb' 13 2 ≠ 0 := by
  simp [decodeStr, ite_error_iff, not_and_or, -not_and]

end Refused

/-- Settles O5: for each opcode `n`, the case `h_n` of a split `decode`, the reserved words of that opcode are those its
format's decoder refuses. -/
theorem illegalWordsAreTheReservedOnes : Obligations.IllegalWordsAreTheReservedOnes := by
  intro c
  unfold decode
  split
  case h_3 hop => simp [decodeWiden_error_iff, ReservedWord, BreaksMustBeZero, hop]
  case h_4 hop => simp [decodeNarrow_error_iff, ReservedWord, BreaksMustBeZero, hop, or_assoc]
  case h_11 hop => simp [decodeCompare_error_iff, ReservedWord, BreaksMustBeZero, hop]
  case h_20 hop => simp [decodeDivmod_error_iff, ReservedWord, BreaksMustBeZero, hop]
  case h_22 hop => simp [decodeStr_error_iff, ReservedWord, BreaksMustBeZero, hop]
  case h_23 =>
    have reserved : (opField c).toNat = 0 ∨ 0x17 ≤ (opField c).toNat := by
      simp only [imp_false, ← BitVec.toNat_inj, BitVec.reduceToNat] at *
      omega
    exact iff_of_true ⟨_, rfl⟩ (reserved.imp_right .inl)
  case h_1 hop | h_2 hop | h_8 hop | h_14 hop | h_15 hop | h_16 hop | h_21 hop =>
    simp [decodeRR_error_iff, ReservedWord, BreaksMustBeZero, hop]
  all_goals next hop => simp [decodeRRR_error_iff, ReservedWord, BreaksMustBeZero, hop]

end Sys2Proof
end

section
/-! The opcode map (30_encoding.md R86, R87): a row's mask and match compare the fields that the format's decoder
checks. -/

namespace Sys2Proof

/-! ## Masked words, field by field -/

/-- Words are equal just when their fields are (R81). -/
theorem word_eq_iff (c d : CmdWord) : c = d ↔ opField c = opField d ∧ rdField c = rdField d ∧
    raField c = raField d ∧ rbField c = rbField d ∧ rcField c = rcField d ∧ immField c = immField d := by
  constructor
  · rintro rfl
    exact ⟨rfl, rfl, rfl, rfl, rfl, rfl⟩
  · rintro ⟨hop, hrd, hra, hrb, hrc, himm⟩
    rw [← packWord_fields c, hop, hrd, hra, hrb, hrc, himm, packWord_fields]

/-- A masked word is compared field by field. -/
theorem and_eq_iff (c mask mtch : CmdWord) : c &&& mask = mtch ↔
    opField c &&& opField mask = opField mtch ∧ rdField c &&& rdField mask = rdField mtch ∧
    raField c &&& raField mask = raField mtch ∧ rbField c &&& rbField mask = rbField mtch ∧
    rcField c &&& rcField mask = rcField mtch ∧ immField c &&& immField mask = immField mtch := by
  rw [word_eq_iff]
  simp only [opField, rdField, raField, rbField, rcField, immField, BitVec.extractLsb'_and]

/-- The comparison a row makes: it looks at the whole opcode and at no bit of RA. -/
theorem and_packWord_eq_iff (c : CmdWord) (op : BitVec 5) (rd rb rc : BitVec 3) (imm imm' : BitVec 15) :
    c &&& packWord (.allOnes 5) rd 0 rb rc imm = packWord op 0 0 0 0 imm' ↔
      opField c = op ∧ rdField c &&& rd = 0 ∧ rbField c &&& rb = 0 ∧ rcField c &&& rc = 0 ∧
        immField c &&& imm = imm' := by
  rw [and_eq_iff]
  simp [-BitVec.reduceAllOnes]

/-- A part of IMM is masked to zero just when it is zero. -/
theorem immField_and_eq_zero_iff {start len : Nat} (h : start + len ≤ 15) (c : CmdWord) :
    immField c &&& (BitVec.allOnes len).setWidth 15 <<< start = 0 ↔ c.extractLsb' start len = 0 := by
  rw [extractLsb'_immField h]
  constructor <;> intro zero <;> ext i hi
  · have := congrArg (fun b => b.getLsbD (start + i)) zero
    simp at this ⊢
    grind
  · have := congrArg (fun b => b.getLsbD (i - start)) zero
    simp at this ⊢
    grind

/-- A row accepts a word when the masked word is its match and the extra constraint holds (R86). -/
theorem OpcodeRow.accepts_iff (r : OpcodeRow) (c : CmdWord) :
    r.accepts c = true ↔ c &&& r.mask = r.mtch ∧ r.allowed c = true := by
  rw [accepts, Bool.and_eq_true, beq_iff_eq]

/-! ## No two rows overlap -/

/-- Any two rows of the map ask for different values of some bit that both look at. -/
theorem opcodeMap_disjoint : opcodeMap.Pairwise fun r r' => r.mtch &&& r'.mask ≠ r'.mtch &&& r.mask := by decide

/-- Two rows that accept the same word agree on every bit that both look at. -/
theorem OpcodeRow.agree_of_accepts {r r' : OpcodeRow} {c : CmdWord} (h : r.accepts c = true)
    (h' : r'.accepts c = true) : r.mtch &&& r'.mask = r'.mtch &&& r.mask := by
  rw [← ((accepts_iff r c).1 h).1, ← ((accepts_iff r' c).1 h').1, BitVec.and_assoc, BitVec.and_assoc,
    BitVec.and_comm r.mask]

theorem accepting_rows_length_le_one (c : CmdWord) {rows : List OpcodeRow}
    (disjoint : rows.Pairwise fun r r' => r.mtch &&& r'.mask ≠ r'.mtch &&& r.mask) :
    (rows.filter fun r => r.accepts c).length ≤ 1 := by
  induction rows with
  | nil => exact Nat.zero_le 1
  | cons r rows ih =>
    obtain ⟨apart, disjoint⟩ := List.pairwise_cons.1 disjoint
    by_cases h : r.accepts c = true
    · have none : rows.filter (fun r' => r'.accepts c) = [] :=
        List.filter_eq_nil_iff.2 fun r' hr' h' => apart r' hr' (OpcodeRow.agree_of_accepts h h')
      simp [h, none]
    · simpa [h] using ih disjoint

/-! ## The rows of an opcode -/

/-- The rows of the map whose match has the opcode `op`. -/
def rowsOf (op : BitVec 5) : List OpcodeRow := opcodeMap.filter fun r => opField r.mtch == op

/-- Every row looks at the whole opcode, which is one of 0x01..0x16. -/
theorem opcodeMap_opField : ∀ r ∈ opcodeMap, opField r.mask = BitVec.allOnes 5 ∧
    1 ≤ (opField r.mtch).toNat ∧ (opField r.mtch).toNat ≤ 0x16 := by decide

/-- A row of the map that accepts a word has the word's opcode. -/
theorem opField_of_accepts {r : OpcodeRow} (hr : r ∈ opcodeMap) {c : CmdWord} (h : r.accepts c = true) :
    opField r.mtch = opField c := by
  obtain ⟨hop, -⟩ := (and_eq_iff ..).1 ((OpcodeRow.accepts_iff r c).1 h).1
  rw [← hop, (opcodeMap_opField r hr).1, BitVec.and_allOnes]

/-- Only the rows of its opcode read a word. -/
theorem decodeByRows_eq {c : CmdWord} {op : BitVec 5} (hop : opField c = op) :
    decodeByRows c = ((rowsOf op).find? fun r => r.accepts c).map fun r => r.build c := by
  have same : ∀ r ∈ opcodeMap, r.accepts c = (opField r.mtch == op && r.accepts c) := by
    intro r hr
    cases h : r.accepts c
    · rw [Bool.and_false]
    · simp [opField_of_accepts hr h, hop]
  simp only [decodeByRows, rowsOf, List.find?_filter, Bool.decide_and, Bool.decide_eq_true]
  rw [List.find?_congr same]

/-- No row has a reserved opcode. -/
theorem rowsOf_reserved {op : BitVec 5} (reserved : op.toNat = 0 ∨ 0x17 ≤ op.toNat) : rowsOf op = [] := by
  refine List.filter_eq_nil_iff.2 fun r hr hop => ?_
  obtain ⟨-, low, high⟩ := opcodeMap_opField r hr
  rw [beq_iff_eq.1 hop] at low high
  omega

/-! ## The rows of each format read a word as the format's decoder does -/

section Formats

variable {c : CmdWord} {op : BitVec 5} {mtch : CmdWord}

/-- A decoder agrees with the one row of an opcode when it refuses just the words the row does not accept, and reads the
others as the row does. -/
theorem toOption_of_row {r : OpcodeRow} {d : Except IllegalReason Instr} (hrows : rowsOf op = [r])
    (hop : opField c = op) (accepts : r.accepts c = true ↔ ¬∃ why, d = .error why)
    (reads : ∀ i, d = .ok i → i = r.build c) : d.toOption = decodeByRows c := by
  rw [decodeByRows_eq hop, hrows, List.find?_singleton]
  cases d with
  | error why => simp [Except.toOption, accepts]
  | ok i => simp [Except.toOption, accepts, reads i rfl]

theorem toOption_decodeRR {k : Reg → Reg → Instr} (hrows : rowsOf op = [rowRR mtch k])
    (hm : mtch = packWord op 0 0 0 0 0) (hop : opField c = op) : (decodeRR c k).toOption = decodeByRows c := by
  have hmask : (rowRR mtch k).mask = packWord (.allOnes 5) 0 0 (.allOnes 3) (.allOnes 3) (.allOnes 15) := rfl
  refine toOption_of_row hrows hop ?_ fun i h => ?_
  · rw [OpcodeRow.accepts_iff, hmask, rowRR, hm, and_packWord_eq_iff, decodeRR_error_iff]
    simp [hop, -BitVec.reduceAllOnes]
  · unfold decodeRR at h
    split at h <;> cases h
    rfl

theorem toOption_decodeRRR {k : Reg → Reg → Reg → Instr} (hrows : rowsOf op = [rowRRR mtch k])
    (hm : mtch = packWord op 0 0 0 0 0) (hop : opField c = op) : (decodeRRR c k).toOption = decodeByRows c := by
  have hmask : (rowRRR mtch k).mask = packWord (.allOnes 5) 0 0 0 (.allOnes 3) (.allOnes 15) := rfl
  refine toOption_of_row hrows hop ?_ fun i h => ?_
  · rw [OpcodeRow.accepts_iff, hmask, rowRRR, hm, and_packWord_eq_iff, decodeRRR_error_iff]
    simp [hop, -BitVec.reduceAllOnes]
  · unfold decodeRRR at h
    split at h <;> cases h
    rfl

theorem toOption_decodeWiden (hop : opField c = 0x03#5) : (decodeWiden c).toOption = decodeByRows c := by
  have hrows : rowsOf 0x03#5 = [opcodeMap[2]] := rfl
  have hmask : opcodeMap[2].mask = packWord (.allOnes 5) 0 0 (.allOnes 3) (.allOnes 3)
    ((BitVec.allOnes 11).setWidth 15 <<< 4) := rfl
  have hmtch : opcodeMap[2].mtch = packWord 0x03#5 0 0 0 0 0 := rfl
  refine toOption_of_row hrows hop ?_ fun i h => ?_
  · rw [OpcodeRow.accepts_iff, hmask, hmtch, and_packWord_eq_iff, immField_and_eq_zero_iff (by decide),
      decodeWiden_error_iff]
    simp [opcodeMap, hop, and_assoc, Nat.lt_succ_iff, imp_iff_not_or, -BitVec.reduceAllOnes]
  · simp only [decodeWiden] at h
    split at h
    · split at h
      · cases h
      · next w hw =>
        split at h <;> cases h
        simp [opcodeMap, wordWidth, hw]
    · cases h

/-- IMM above W is zero just when S and the rest of IMM are (R88 g). -/
theorem extractLsb'_three_twelve_eq_zero_iff :
    c.extractLsb' 3 12 = 0 ↔ c.extractLsb' 4 11 = 0 ∧ signField c = 0 := by
  have joined : c.extractLsb' 3 12 = c.extractLsb' 4 11 ++ signField c :=
    (BitVec.extractLsb'_append_extractLsb'_eq_extractLsb' (len₁ := 1) (len₂ := 11) rfl).symm
  constructor
  · intro zero
    rw [joined] at zero
    have high := congrArg (BitVec.extractLsb' 1 11) zero
    have low := congrArg (BitVec.extractLsb' 0 1) zero
    rw [BitVec.extractLsb'_append_eq_left] at high
    rw [BitVec.extractLsb'_append_eq_right] at low
    exact ⟨high, low⟩
  · rintro ⟨high, low⟩
    rw [joined, high, low]
    rfl

theorem toOption_decodeNarrow (hop : opField c = 0x04#5) : (decodeNarrow c).toOption = decodeByRows c := by
  have hrows : rowsOf 0x04#5 = [opcodeMap[3]] := rfl
  have hmask : opcodeMap[3].mask = packWord (.allOnes 5) 0 0 (.allOnes 3) (.allOnes 3)
    ((BitVec.allOnes 12).setWidth 15 <<< 3) := rfl
  have hmtch : opcodeMap[3].mtch = packWord 0x04#5 0 0 0 0 0 := rfl
  refine toOption_of_row hrows hop ?_ fun i h => ?_
  · rw [OpcodeRow.accepts_iff, hmask, hmtch, and_packWord_eq_iff, immField_and_eq_zero_iff (by decide),
      extractLsb'_three_twelve_eq_zero_iff, decodeNarrow_error_iff]
    simp [opcodeMap, hop, and_assoc, Nat.lt_succ_iff, -BitVec.reduceAllOnes]
  · simp only [decodeNarrow] at h
    split at h
    · split at h <;> cases h
      next w hw => simp [opcodeMap, wordWidth, hw]
    · cases h

theorem toOption_decodeDivmod (hop : opField c = 0x14#5) : (decodeDivmod c).toOption = decodeByRows c := by
  have hrows : rowsOf 0x14#5 = [opcodeMap[24]] := rfl
  have hmask : opcodeMap[24].mask = packWord (.allOnes 5) 0 0 0 0 (.allOnes 15) := rfl
  have hmtch : opcodeMap[24].mtch = packWord 0x14#5 0 0 0 0 0 := rfl
  refine toOption_of_row hrows hop ?_ fun i h => ?_
  · rw [OpcodeRow.accepts_iff, hmask, hmtch, and_packWord_eq_iff, decodeDivmod_error_iff]
    simp [opcodeMap, hop, -BitVec.reduceAllOnes]
  · unfold decodeDivmod at h
    split at h
    · split at h <;> cases h
      rfl
    · cases h

theorem toOption_decodeStr (hop : opField c = 0x16#5) : (decodeStr c).toOption = decodeByRows c := by
  have hrows : rowsOf 0x16#5 = [opcodeMap[26]] := rfl
  have hmask : opcodeMap[26].mask = packWord (.allOnes 5) (.allOnes 3) 0 (.allOnes 3) (.allOnes 3)
    ((BitVec.allOnes 2).setWidth 15 <<< 13) := rfl
  have hmtch : opcodeMap[26].mtch = packWord 0x16#5 0 0 0 0 0 := rfl
  refine toOption_of_row hrows hop ?_ fun i h => ?_
  · rw [OpcodeRow.accepts_iff, hmask, hmtch, and_packWord_eq_iff, immField_and_eq_zero_iff (by decide),
      decodeStr_error_iff]
    simp [opcodeMap, hop, -BitVec.reduceAllOnes]
  · unfold decodeStr at h
    split at h <;> cases h
    rfl

/-- The row of the comparison with a condition code. -/
def compareRow (cond : BitVec 3) (k : Reg → Reg → Reg → Instr) : OpcodeRow :=
  rowRRR (packWord 0x0B#5 0 0 0 0 (cond.setWidth 15)) k

theorem compareRow_accepts (hop : opField c = 0x0B#5) (cond : BitVec 3) (k : Reg → Reg → Reg → Instr) :
    (compareRow cond k).accepts c = decide ((rcField c = 0 ∧ c.extractLsb' 3 12 = 0) ∧ condField c = cond) := by
  have hmask : (compareRow cond k).mask = packWord (.allOnes 5) 0 0 0 (.allOnes 3) (.allOnes 15) := rfl
  have himm : immField c = cond.setWidth 15 ↔ c.extractLsb' 3 12 = 0 ∧ condField c = cond := by
    constructor
    · intro h
      rw [condField, extractLsb'_immField (by decide), extractLsb'_immField (by decide), h]
      exact (compareImm_parts cond).symm
    · rintro ⟨rest, rfl⟩
      exact (immField_of_compare rest).symm
  rw [Bool.eq_iff_iff, OpcodeRow.accepts_iff, hmask, compareRow, rowRRR, and_packWord_eq_iff, BitVec.and_allOnes]
  simp [himm, hop, and_assoc, -BitVec.reduceAllOnes]

theorem toOption_decodeCompare (hop : opField c = 0x0B#5) : (decodeCompare c).toOption = decodeByRows c := by
  have hrows : rowsOf 0x0B#5 = [compareRow 0#3 .ceq, compareRow 1#3 .cne, compareRow 2#3 .clt, compareRow 3#3 .cgt,
    compareRow 4#3 .cle, compareRow 5#3 .cge] := rfl
  simp only [decodeByRows_eq hop, hrows, decodeCompare, List.find?_cons, compareRow_accepts hop]
  by_cases zero : rcField c = 0 ∧ c.extractLsb' 3 12 = 0
  · simp only [zero, true_and, and_self, if_true]
    split
    case h_7 h0 h1 h2 h3 h4 h5 =>
      simp only [decide_eq_false h0, decide_eq_false h1, decide_eq_false h2, decide_eq_false h3, decide_eq_false h4,
        decide_eq_false h5]
      rfl
    all_goals next hcond =>
      simp only [hcond]
      rfl
  · simp only [zero, false_and, if_false]
    rfl

end Formats

/-- Settles O4: the rows of the word's opcode `n`, the case `h_n` of a split `decode`, read the word as the opcode's
format does, and rows that disagree on a bit both look at never accept the same word. -/
theorem decodeFollowsOpcodeMap : Obligations.DecodeFollowsOpcodeMap := by
  intro c
  refine ⟨?_, accepting_rows_length_le_one c opcodeMap_disjoint⟩
  unfold decode
  split
  case h_3 hop => exact toOption_decodeWiden hop
  case h_4 hop => exact toOption_decodeNarrow hop
  case h_11 hop => exact toOption_decodeCompare hop
  case h_20 hop => exact toOption_decodeDivmod hop
  case h_22 hop => exact toOption_decodeStr hop
  case h_23 =>
    have reserved : (opField c).toNat = 0 ∨ 0x17 ≤ (opField c).toNat := by
      simp only [imp_false, ← BitVec.toNat_inj, BitVec.reduceToNat] at *
      omega
    rw [decodeByRows_eq rfl, rowsOf_reserved reserved]
    rfl
  case h_1 hop | h_2 hop | h_8 hop | h_14 hop | h_15 hop | h_16 hop | h_21 hop =>
    exact toOption_decodeRR rfl rfl hop
  all_goals next hop => exact toOption_decodeRRR rfl rfl hop

end Sys2Proof
end

section
/-! What a command does to the state, said once: an error raised, registers written, or a text stored, as its source
registers decide. -/

namespace Sys2Proof.Machine

/-- What a command does when no error is held. -/
inductive Effect where
  /-- It raises an error (60_exceptions.md R262). -/
  | raise (code : ErrCode)
  /-- It writes operand registers, in this order. -/
  | write (values : List (Reg × U128))
  /-- It stores a text (46_string.md R240). -/
  | text (t : List Byte)

namespace Effect

/-- The state an effect leaves. -/
def apply : Effect → State → State
  | .raise code, s => s.raise code
  | .write values, s => values.foldl (fun s p => s.setU p.1 p.2) s
  | .text t, s => s.storeText t

/-- The error an effect raises. -/
def error : Effect → ErrCode
  | .raise code => code
  | .write _ | .text _ => .none

/-- Writing registers changes nothing but the registers. -/
theorem apply_write_eq (values : List (Reg × U128)) (s : State) :
    ∃ u, (write values).apply s = { s with u := u } := by
  induction values generalizing s with
  | nil => exact ⟨s.u, rfl⟩
  | cons p values ih => exact ih (s.setU p.1 p.2)

/-- A register that is not written keeps its value. -/
theorem apply_write_getU_of_notMem {values : List (Reg × U128)} {r : Reg} (h : r ∉ values.map Prod.fst) (s : State) :
    ((write values).apply s).getU r = s.getU r := by
  induction values generalizing s with
  | nil => rfl
  | cons p values ih =>
    obtain ⟨hp, hvalues⟩ := not_or.1 (mt List.mem_cons.2 h)
    exact (ih hvalues (s.setU p.1 p.2)).trans (State.getU_setU_of_ne s p.1 p.2 r hp)

/-- A register that is written holds the same, whatever it held. -/
theorem apply_write_getU_of_mem {values : List (Reg × U128)} {r : Reg} (h : r ∈ values.map Prod.fst) (s s' : State) :
    ((write values).apply s).getU r = ((write values).apply s').getU r := by
  induction values generalizing s s' with
  | nil => cases h
  | cons p values ih =>
    by_cases later : r ∈ values.map Prod.fst
    · exact ih later (s.setU p.1 p.2) (s'.setU p.1 p.2)
    · obtain rfl : r = p.1 := (List.mem_cons.1 h).resolve_right later
      have written (s : State) : ((write (p :: values)).apply s).getU p.1 = p.2 :=
        (apply_write_getU_of_notMem later (s.setU p.1 p.2)).trans (State.getU_setU_self s p.1 p.2)
      rw [written, written]

/-- No effect touches IRQ_EN, BUSY, PENDING, `rst` or the host's side. -/
theorem apply_frame (e : Effect) (s : State) : (e.apply s).irqEn = s.irqEn ∧ (e.apply s).busy = s.busy ∧
    (e.apply s).pending = s.pending ∧ (e.apply s).rst = s.rst ∧ (e.apply s).host = s.host ∧
    (e.apply s).answer = s.answer := by
  cases e with
  | raise code => exact ⟨rfl, rfl, rfl, rfl, rfl, rfl⟩
  | write values =>
    obtain ⟨u, hu⟩ := apply_write_eq values s
    rw [hu]
    exact ⟨rfl, rfl, rfl, rfl, rfl, rfl⟩
  | text t => exact ⟨rfl, rfl, rfl, rfl, rfl, rfl⟩

/-- With no error held before, the error held after an effect is the one it raises. -/
theorem apply_err (e : Effect) {s : State} (h : s.err = .none) : (e.apply s).err = e.error := by
  cases e with
  | raise code => rfl
  | write values =>
    obtain ⟨u, hu⟩ := apply_write_eq values s
    rw [hu]
    exact h
  | text t => exact h

/-- An effect that raises an error does nothing else. -/
theorem apply_eq_of_error (e : Effect) {s : State} (h : s.err = .none) (raised : (e.apply s).err ≠ .none) :
    e.apply s = { s with err := (e.apply s).err, errCmd := s.pending } := by
  rw [apply_err e h] at raised ⊢
  cases e with
  | raise code => rfl
  | write values => exact absurd rfl raised
  | text t => exact absurd rfl raised

/-- An effect does not depend on what the host does next. -/
theorem apply_host (e : Effect) (s : State) (host : List HostEvent) :
    e.apply { s with host } = { e.apply s with host } := by
  cases e with
  | raise code => rfl
  | write values =>
    induction values generalizing s with
    | nil => rfl
    | cons p values ih => exact ih (s.setU p.1 p.2)
  | text t => rfl

/-- The effects a command can have: an error, exactly its destinations, or, from STR, a text of digits that fits. -/
def Of (i : Instr) : Effect → Prop
  | .raise code => code ≠ .none
  | .write values => rendersText i = false ∧ ∀ r, r ∈ values.map Prod.fst ↔ r ∈ dests i
  | .text t => rendersText i = true ∧ t.length < 256 ∧ ∀ c ∈ t, IsDigitOf 16 c

/-- A command that renders text has no destination. -/
theorem dests_of_rendersText {i : Instr} (renders : rendersText i = true) : dests i = [] := by
  cases i with
  | str => rfl
  | _ => cases renders

section Kinds

variable {i : Instr} {e : Effect} (kind : e.Of i)

include kind

/-- A register that is no destination keeps its value. -/
theorem apply_getU_of_notMem_dests {r : Reg} (hr : r ∉ dests i) (s : State) : (e.apply s).getU r = s.getU r := by
  cases e with
  | raise code => rfl
  | write values =>
    obtain ⟨-, written⟩ := kind
    exact apply_write_getU_of_notMem (mt (written r).1 hr) s
  | text t => rfl

/-- Only a command that renders text changes the text. -/
theorem apply_text_of_not_rendersText (renders : rendersText i = false) (s : State) :
    (e.apply s).strLen = s.strLen ∧ ∀ k, (e.apply s).strByte k = s.strByte k := by
  cases e with
  | raise code => exact ⟨rfl, fun _ => rfl⟩
  | write values =>
    obtain ⟨u, hu⟩ := apply_write_eq values s
    rw [hu]
    exact ⟨rfl, fun _ => rfl⟩
  | text t =>
    obtain ⟨isText, -⟩ := kind
    rw [renders] at isText
    cases isText

/-- Without an error, what an effect writes does not depend on the state it is applied to. -/
theorem apply_results_eq (clear : e.error = .none) (s s' : State) :
    (∀ r ∈ dests i, (e.apply s).getU r = (e.apply s').getU r) ∧
    (rendersText i = true →
      (e.apply s).strLen = (e.apply s').strLen ∧ ∀ k, (e.apply s).strByte k = (e.apply s').strByte k) := by
  cases e with
  | raise code => exact absurd clear kind
  | write values =>
    obtain ⟨noText, written⟩ := kind
    refine ⟨fun r hr => apply_write_getU_of_mem ((written r).2 hr) s s', fun renders => ?_⟩
    rw [noText] at renders
    cases renders
  | text t =>
    obtain ⟨renders, -⟩ := kind
    rw [dests_of_rendersText renders]
    exact ⟨fun r hr => absurd hr List.not_mem_nil, fun _ => ⟨rfl, fun _ => rfl⟩⟩

end Kinds

end Effect

/-- A command's outcome depends on its effect in that state only. -/
theorem command_congr {effect effect' : State → State} {s : State} (h : effect s = effect' s) :
    command effect s = command effect' s := by
  rw [command, command, h]

/-- `e` gives the effect of a command from what the registers hold. -/
structure Means (i : Instr) (e : (Reg → U128) → Effect) : Prop where
  /-- The command is that effect, behind the check for a held error. -/
  runs : ∀ s, exec i s = command (fun s => (e s.getU).apply s) s
  /-- It is an effect the command can have. -/
  kind : ∀ u, (e u).Of i
  /-- The source registers decide it. -/
  reads : ∀ u u', (∀ r ∈ sources i, u r = u' r) → e u = e u'
  /-- It raises the error that the operands ask for. -/
  raises : i.wellFormed = true → ∀ s, (e s.getU).error = operandError i s

section Forms

variable {i : Instr} {rd ra rb : Reg}

theorem means_of_unary {f : U128 → U128} (runs : ∀ s, exec i s = command (unary f rd ra) s) (hd : dests i = [rd])
    (hs : sources i = [ra]) (renders : rendersText i = false) (noError : ∀ s, operandError i s = .none) :
    Means i fun u => .write [(rd, f (u ra))] where
  runs := runs
  kind u := ⟨renders, by simp [hd]⟩
  reads u u' agree := by rw [agree ra (by simp [hs])]
  raises _ s := (noError s).symm

theorem means_of_binary {f : U128 → U128 → U128} (runs : ∀ s, exec i s = command (binary f rd ra rb) s)
    (hd : dests i = [rd]) (hs : sources i = [ra, rb]) (renders : rendersText i = false)
    (noError : ∀ s, operandError i s = .none) : Means i fun u => .write [(rd, f (u ra) (u rb))] where
  runs := runs
  kind u := ⟨renders, by simp [hd]⟩
  reads u u' agree := by rw [agree ra (by simp [hs]), agree rb (by simp [hs])]
  raises _ s := (noError s).symm

/-- What the divider does, when it would write `values` (45_divide.md R213). -/
def divides (rb : Reg) (values : (Reg → U128) → List (Reg × U128)) (u : Reg → U128) : Effect :=
  if val (u rb) = 0 then .raise .domain else .write (values u)

theorem means_of_dividing {values : (Reg → U128) → List (Reg × U128)} {effect : State → State}
    (runs : ∀ s, exec i s = command (dividing rb effect) s)
    (writes : ∀ s, effect s = (Effect.write (values s.getU)).apply s) (renders : rendersText i = false)
    (hd : ∀ u r, r ∈ (values u).map Prod.fst ↔ r ∈ dests i) (hs : sources i = [ra, rb])
    (reads : ∀ u u', u ra = u' ra → u rb = u' rb → values u = values u')
    (raises : ∀ s, operandError i s = if val (s.getU rb) = 0 then .domain else .none) : Means i (divides rb values) where
  runs s := by
    refine (runs s).trans (command_congr ?_)
    unfold dividing divides
    split
    · rfl
    · exact writes s
  kind u := by
    unfold divides
    split
    · exact nofun
    · exact ⟨renders, hd u⟩
  reads u u' agree := by
    have hra := agree ra (by simp [hs])
    have hrb := agree rb (by simp [hs])
    rw [divides, divides, hrb, reads u u' hra hrb]
  raises _ s := by
    rw [raises, divides]
    split <;> rfl

end Forms

section Commands

variable (rd ra rb : Reg)

theorem means_mvz :
    Means (.mvz rd ra) fun u => .write (if rd = ra then [(rd, u ra)] else [(rd, u ra), (ra, 0#128)]) where
  runs s := by
    refine command_congr (effect := moveEffect rd ra) ?_
    unfold moveEffect
    split <;> rfl
  kind u := ⟨rfl, by split <;> simp [dests, *]⟩
  reads u u' agree := by rw [agree ra (by simp [sources])]
  raises _ s := rfl

theorem means_widen (signed : Bool) (w : Width) : Means (.widen rd ra signed w) fun u =>
    if signed && w == .bool then .raise .illegal else .write [(rd, widenValue signed w (u ra))] where
  runs s := by
    refine command_congr (effect := widenEffect rd ra signed w) ?_
    unfold widenEffect
    split <;> rfl
  kind u := by
    split
    · exact nofun
    · exact ⟨rfl, by simp [dests]⟩
  reads u u' agree := by rw [agree ra (by simp [sources])]
  raises legal s := by
    rw [Instr.wellFormed, Bool.not_eq_true'] at legal
    rw [legal]
    rfl

theorem means_div : Means (.div rd ra rb) (divides rb fun u => [(rd, quotient (u ra) (u rb))]) :=
  means_of_dividing (fun _ => rfl) (fun _ => rfl) rfl (by simp [dests]) rfl (fun _ _ hra hrb => by rw [hra, hrb])
    fun _ => rfl

theorem means_mod : Means (.mod rd ra rb) (divides rb fun u => [(rd, remainder (u ra) (u rb))]) :=
  means_of_dividing (fun _ => rfl) (fun _ => rfl) rfl (by simp [dests]) rfl (fun _ _ hra hrb => by rw [hra, hrb])
    fun _ => rfl

theorem means_divmod {rq rr : Reg} (differ : rq ≠ rr) : Means (.divmod rq rr ra rb)
    (divides rb fun u => [(rq, quotient (u ra) (u rb)), (rr, remainder (u ra) (u rb))]) :=
  means_of_dividing (fun _ => command_congr (if_neg differ)) (fun _ => rfl) rfl (by simp [dests]) rfl
    (fun _ _ hra hrb => by rw [hra, hrb]) fun _ => rfl

/-- DIVMOD with equal destinations is ILLEGAL (30_encoding.md R88 h). -/
theorem means_divmod_same (rq : Reg) : Means (.divmod rq rq ra rb) fun _ => .raise .illegal where
  runs _ := command_congr (if_pos rfl)
  kind _ := nofun
  reads _ _ _ := rfl
  raises legal _ := absurd rfl (bne_iff_ne.1 legal)

theorem means_str (base : BitVec 5) (minlen : BitVec 8) : Means (.str ra base minlen) fun u =>
    if badBase base then .raise .invalidArg else .text (padTo minlen.toNat (digits (val (u ra)) base.toNat)) where
  runs s := by
    refine command_congr (effect := strEffect ra base minlen) ?_
    unfold strEffect
    split <;> rfl
  kind u := by
    split
    · exact nofun
    · next legal =>
      rw [badBase_iff, not_or, Nat.not_lt, Nat.not_lt] at legal
      obtain ⟨low, high⟩ := legal
      have isDigit := isDigitOf_of_mem_padTo (len := minlen.toNat) (by omega) high
        (isDigitOf_of_mem_digits low high (u ra))
      exact ⟨rfl, length_rendered_lt low (u ra) minlen, fun c hc => (isDigit c hc).imp_right (lt_of_lt_of_le · high)⟩
  reads u u' agree := by rw [agree ra (by simp [sources])]
  raises _ s := by
    simp only [operandError, badBase_iff]
    split <;> rfl

end Commands

/-- Every command has an effect that its source registers decide. -/
theorem exec_means (i : Instr) : ∃ e, Means i e := by
  cases i with
  | cpy | narrow | not | neg | inc | dec | bitlen =>
    exact ⟨_, means_of_unary (fun _ => rfl) rfl rfl rfl fun _ => rfl⟩
  | and | or | xor | shl | shr | ceq | cne | clt | cgt | cle | cge | add | sub | mul =>
    exact ⟨_, means_of_binary (fun _ => rfl) rfl rfl rfl fun _ => rfl⟩
  | mvz rd ra => exact ⟨_, means_mvz rd ra⟩
  | widen rd ra signed w => exact ⟨_, means_widen rd ra signed w⟩
  | div rd ra rb => exact ⟨_, means_div rd ra rb⟩
  | mod rd ra rb => exact ⟨_, means_mod rd ra rb⟩
  | divmod rq rr ra rb =>
    by_cases same : rq = rr
    · subst same
      exact ⟨_, means_divmod_same ra rb rq⟩
    · exact ⟨_, means_divmod ra rb same⟩
  | str ra base minlen => exact ⟨_, means_str ra base minlen⟩

/-! ## All commands -/

/-- A command that answers a next state, with no error held, left its effect. -/
theorem Means.next {i : Instr} {e : (Reg → U128) → Effect} (m : Means i e) {s t : State} (h : s.err = .none)
    (ht : exec i s = .next t) : t = (e s.getU).apply s := by
  rw [m.runs, command_of_clear h] at ht
  cases ht
  rfl

/-- Settles O44: an effect, or no change while an error is held. -/
theorem everyCommandAnswersNext : Obligations.EveryCommandAnswersNext := by
  intro i s
  obtain ⟨effect, he⟩ := exec_is_command i
  rcases command_cases effect s with ⟨-, h⟩ | ⟨-, h⟩ <;> exact ⟨_, (he s).trans h⟩

/-- Settles O45: an effect changes only what its kind writes. -/
theorem onlyDestinationsAreWritten : Obligations.OnlyDestinationsAreWritten := by
  intro i s t ht
  obtain ⟨e, m⟩ := exec_means i
  rw [m.runs] at ht
  obtain ⟨-, rfl⟩ | ⟨-, rfl⟩ := command_next ht
  · have kind := m.kind s.getU
    exact ⟨fun r hr => Effect.apply_getU_of_notMem_dests kind hr s,
      fun renders => Effect.apply_text_of_not_rendersText kind renders s, Effect.apply_frame ..⟩
  · exact ⟨fun _ _ => rfl, fun _ => ⟨rfl, fun _ => rfl⟩, rfl, rfl, rfl, rfl, rfl, rfl⟩

/-- Settles O46: the error held after a command is the one its effect raises. -/
theorem onlyListedErrorsAreRaised : Obligations.OnlyListedErrorsAreRaised := by
  intro i s legal h
  obtain ⟨e, m⟩ := exec_means i
  exact completesWith_of_command (m.runs s) h ((Effect.apply_err _ h).trans (m.raises legal s))

/-- Settles O49: the sources decide one effect, which is applied to both states. -/
theorem resultsDependOnSourcesOnly : Obligations.ResultsDependOnSourcesOnly := by
  intro i s s' t t' h h' agree ht ht'
  obtain ⟨e, m⟩ := exec_means i
  obtain rfl := m.next h ht
  obtain rfl := m.next h' ht'
  rw [← m.reads s.getU s'.getU agree, Effect.apply_err _ h, Effect.apply_err _ h']
  exact ⟨rfl, fun clear => Effect.apply_results_eq (m.kind s.getU) clear s s'⟩

end Sys2Proof.Machine
end

section
/-! The completion of a command word (70_reset_and_hazards.md R294): an effect of the word, or no change while an error
is held. -/

namespace Sys2Proof.Machine

/-! ## ERRCMD explains the error (10_state.md R27) -/

/-- With no error held there is nothing to explain. -/
theorem errorExplained_of_clear {s : State} (h : s.err = .none) : ErrorExplained s := by
  rw [ErrorExplained, h]
  trivial

/-- Only ERR and ERRCMD matter for the explanation. -/
theorem ErrorExplained.congr {s t : State} (h : ErrorExplained s) (err : t.err = s.err) (errCmd : t.errCmd = s.errCmd) :
    ErrorExplained t := by
  rwa [ErrorExplained, err, errCmd]

/-- ILLEGAL is explained by a word that is no command. -/
theorem errorExplained_of_illegal {s : State} {why : IllegalReason} (err : s.err = .illegal)
    (word : decode s.errCmd = .error why) : ErrorExplained s := by
  rw [ErrorExplained, err]
  exact ⟨why, word⟩

/-- The check of the divisor leaves no error or a DOMAIN that the word explains. -/
theorem errorExplained_of_divisor {i : Instr} {s t : State} {rb : Reg}
    (err : t.err = if val (s.getU rb) = 0 then .domain else .none) (word : decode t.errCmd = .ok i)
    (division : (∃ rd ra rb, i = .div rd ra rb ∨ i = .mod rd ra rb) ∨ ∃ rq rr ra rb, i = .divmod rq rr ra rb) :
    ErrorExplained t := by
  split at err
  · rw [ErrorExplained, err]
    exact ⟨i, word, division⟩
  · exact errorExplained_of_clear err

/-- The error a command raises on its operands is explained by its word (60_exceptions.md R260). -/
theorem errorExplained_of_operandError {i : Instr} {s t : State} (err : t.err = operandError i s)
    (word : decode t.errCmd = .ok i) : ErrorExplained t := by
  cases i with
  | div rd ra rb => exact errorExplained_of_divisor err word (.inl ⟨rd, ra, rb, .inl rfl⟩)
  | mod rd ra rb => exact errorExplained_of_divisor err word (.inl ⟨rd, ra, rb, .inr rfl⟩)
  | divmod rq rr ra rb => exact errorExplained_of_divisor err word (.inr ⟨rq, rr, ra, rb, rfl⟩)
  | str ra base minlen =>
    rw [operandError] at err
    split at err
    · next bad =>
      rw [ErrorExplained, err]
      exact ⟨ra, base, minlen, word, bad⟩
    · exact errorExplained_of_clear err
  | _ => exact errorExplained_of_clear err

/-! ## Words -/

/-- The effects a command word can have: an error that the word explains, registers written, or a text of digits that
fits. -/
def Effect.OfWord (c : CmdWord) : Effect → Prop
  | .raise code => ∀ s : State, s.err = code → s.errCmd = c → ErrorExplained s
  | .write _ => True
  | .text t => t.length < 256 ∧ ∀ ch ∈ t, IsDigitOf 16 ch

/-- The word of a command has the command's effect. -/
theorem completeWord_of_decode {c : CmdWord} {i : Instr} (h : decode c = .ok i) (s : State) :
    completeWord c s = exec i s := by
  rw [completeWord, h]

/-- A word that is no command raises ILLEGAL (30_encoding.md R88). -/
theorem completeWord_of_illegal {c : CmdWord} {why : IllegalReason} (h : decode c = .error why) (s : State) :
    completeWord c s = command (State.raise .illegal) s := by
  rw [completeWord, h]

/-- Every word, legal or not, has an effect that the registers decide and the word explains. -/
theorem completeWord_effect (c : CmdWord) : ∃ e : (Reg → U128) → Effect,
    (∀ s, completeWord c s = command (fun s => (e s.getU).apply s) s) ∧ ∀ s : State, (e s.getU).OfWord c := by
  cases h : decode c with
  | error why =>
    refine ⟨fun _ => .raise .illegal, completeWord_of_illegal h, fun _ s err errCmd => ?_⟩
    exact errorExplained_of_illegal err (errCmd ▸ h)
  | ok i =>
    obtain ⟨legal, -⟩ := decodedWordReencodes c i h
    obtain ⟨e, m⟩ := exec_means i
    refine ⟨e, fun s => (completeWord_of_decode h s).trans (m.runs s), fun s => ?_⟩
    have kind := m.kind s.getU
    have raises := m.raises legal s
    cases he : e s.getU with
    | raise code =>
      rw [he] at raises
      exact fun t err errCmd => errorExplained_of_operandError (err.trans raises) (errCmd ▸ h)
    | write values => trivial
    | text t =>
      rw [he] at kind
      exact kind.2

/-! ## Completions -/

/-- While an error is held a completion discards the word (60_exceptions.md R263). -/
theorem complete_of_held {s : State} (h : s.err ≠ .none) :
    complete s = .next { s with busy := false, answer := some .okay } := by
  obtain ⟨e, runs, -⟩ := completeWord_effect s.pending
  exact complete_of_next ((runs s).trans (command_of_held h _))

/-- With no error held a completion applies an effect of the word. -/
theorem complete_of_clear {s : State} (h : s.err = .none) : ∃ e : Effect, e.OfWord s.pending ∧
    complete s = .next { e.apply s with busy := false, answer := some .okay } := by
  obtain ⟨e, runs, word⟩ := completeWord_effect s.pending
  exact ⟨_, word s, complete_of_next ((runs s).trans (command_of_clear h _))⟩

/-- A completion answers a next state, in which BUSY is 0 and `rst` and the host's moves are as before. -/
theorem complete_answers_next (s : State) : ∃ t, complete s = .next t ∧ t.busy = false ∧ t.answer = some .okay ∧
    t.rst = s.rst ∧ t.host = s.host := by
  by_cases h : s.err = .none
  · obtain ⟨e, -, he⟩ := complete_of_clear h
    obtain ⟨-, -, -, rst, host, -⟩ := e.apply_frame s
    exact ⟨_, he, rfl, rfl, rst, host⟩
  · exact ⟨_, complete_of_held h, rfl, rfl, rfl, rfl⟩

/-- A completion does not depend on what the host does next. -/
theorem complete_host {s t : State} (h : complete s = .next t) (host : List HostEvent) :
    complete { s with host } = .next { t with host } := by
  obtain ⟨w, hw, rfl⟩ := complete_next h
  obtain ⟨e, runs, -⟩ := completeWord_effect s.pending
  refine complete_of_next (t := { w with host }) ((runs _).trans ?_)
  rw [runs] at hw
  obtain ⟨clear, rfl⟩ | ⟨held, rfl⟩ := command_next hw
  · exact (command_of_clear (s := { s with host }) clear _).trans (congrArg _ (Effect.apply_host ..))
  · exact command_of_held (s := { w with host }) held _

/-! ## Steps that complete a word -/

/-- Settles O6: the step completes the word, and the word's effect is the command's. -/
theorem stepRunsDecodedCommand : Obligations.StepRunsDecodedCommand := by
  intro s i flying hi
  obtain ⟨t, ht⟩ := everyCommandAnswersNext i s
  exact ⟨t, ht, (step_inFlight flying).trans (complete_of_next ((completeWord_of_decode hi s).trans ht))⟩

/-- Settles O7: the step completes the word, and the word's effect is to raise ILLEGAL. -/
theorem illegalWordRaisesOnStep : Obligations.IllegalWordRaisesOnStep := fun s _ flying clear hwhy =>
  (step_inFlight flying).trans
    (complete_of_next ((completeWord_of_illegal hwhy s).trans (command_of_clear clear _)))

/-- Settles O9: both gates discard, the one of `exec` and the one of the completion. -/
theorem heldErrorDiscardsCommands : Obligations.HeldErrorDiscardsCommands := by
  intro s held
  refine ⟨fun i => ?_, fun flying => (step_inFlight flying).trans (complete_of_held held)⟩
  obtain ⟨effect, he⟩ := exec_is_command i
  exact (he s).trans (command_of_held held effect)

/-- Settles O10: the interlock leaves the access to the step after the completion, which the host's moves do not
change. -/
theorem interlockHoldsAccess : Obligations.InterlockHoldsAccess := by
  intro s a rest busy released asked
  have flying : InFlight s := ⟨busy, released, by simp [asked]⟩
  have alone : InFlight { s with host := [] } := ⟨busy, released, by simp⟩
  obtain ⟨t, ht, idle, answered, rst, host⟩ := complete_answers_next s
  exact ⟨t, (step_inFlight flying).trans ht, idle, host, answered, (step_inFlight alone).trans (complete_host ht []),
    step_access ⟨host.trans asked, rst.trans released, idle⟩⟩

/-- Settles O47: an effect that raises an error does nothing else, for a command and for a word in flight. -/
theorem errorsArePrecise : Obligations.ErrorsArePrecise := by
  constructor
  · intro i s t clear ht raised
    obtain ⟨e, m⟩ := exec_means i
    obtain rfl := m.next clear ht
    exact Effect.apply_eq_of_error _ clear raised
  · intro s t flying clear ht raised
    obtain ⟨e, word, he⟩ := complete_of_clear clear
    rw [step_inFlight flying, he] at ht
    cases ht
    exact congrArg (fun t : State => { t with busy := false, answer := some .okay })
      (Effect.apply_eq_of_error e clear raised)

end Sys2Proof.Machine
end

section
/-! Accesses and steps (20_memory.md, 60_exceptions.md, 70_reset_and_hazards.md): what an access can change, and what
follows for a step. -/

namespace Sys2Proof.Machine

/-! ## What a write changes (R54 to R59) -/

section Writes

variable (s : State) (wdata : Limb) (l : Location)

@[simp] theorem issueCommand_err : (issueCommand wdata s).err = s.err := by
  unfold issueCommand
  split <;> rfl

/-- No write touches ERRCMD, STRLEN, STRBUF, `rst` or the host's moves. -/
theorem writeLocation_frame : (writeLocation s wdata l).errCmd = s.errCmd ∧
    (writeLocation s wdata l).strLen = s.strLen ∧ (writeLocation s wdata l).strBuf = s.strBuf ∧
    (writeLocation s wdata l).rst = s.rst ∧ (writeLocation s wdata l).host = s.host := by
  cases l with
  | cmd =>
    rw [writeLocation, issueCommand]
    split <;> exact ⟨rfl, rfl, rfl, rfl, rfl⟩
  | _ => exact ⟨rfl, rfl, rfl, rfl, rfl⟩

/-- Only a STATUS write changes ERR (60_exceptions.md R265). -/
theorem writeLocation_err : (writeLocation s wdata l).err = if l = .status then .none else s.err := by
  cases l with
  | cmd => exact issueCommand_err s wdata
  | _ => rfl

/-- Only a CTRL write changes IRQ_EN. -/
theorem writeLocation_irqEn : (writeLocation s wdata l).irqEn = if l = .ctrl then wdata.getLsbD 0 else s.irqEn := by
  cases l with
  | cmd =>
    rw [writeLocation, issueCommand]
    split <;> rfl
  | _ => rfl

/-- A write sets BUSY only where no error is held (R56). -/
theorem writeLocation_busy (idle : s.busy = false) (busy : (writeLocation s wdata l).busy = true) :
    (writeLocation s wdata l).err = .none := by
  cases l with
  | cmd =>
    rw [writeLocation, issueCommand] at busy ⊢
    split at busy
    · next clear => rwa [if_pos clear]
    · rw [idle] at busy
      cases busy
  | _ => exact absurd (idle.symm.trans busy) (by decide)

end Writes

/-- The only offset of STATUS (R54). -/
theorem busLocation_eq_status {addr : Offset} {size : Nat} (h : busLocation addr size = some .status) :
    addr = 0x088#12 ∧ size = 8 := by
  unfold busLocation mappedRow at h
  split_ifs at h with legal <;> cases h
  exact ⟨BitVec.eq_of_toNat_eq ‹_›, legal.1⟩

/-- The only offset of CTRL (R54). -/
theorem busLocation_eq_ctrl {addr : Offset} {size : Nat} (h : busLocation addr size = some .ctrl) :
    addr = 0x090#12 ∧ size = 8 := by
  unfold busLocation mappedRow at h
  split_ifs at h with legal <;> cases h
  exact ⟨BitVec.eq_of_toNat_eq ‹_›, legal.1⟩

/-- Everything an access can do to the state: nothing, or the effect of a write to a mapped location. -/
theorem busAccess_cases (s : State) (a : BusAccess) : (busAccess s a).2 = s ∨ ∃ addr size wdata l,
    a = .write addr size wdata ∧ busLocation addr size = some l ∧ (busAccess s a).2 = writeLocation s wdata l := by
  cases a with
  | read addr size =>
    left
    rw [busAccess]
    split <;> rfl
  | write addr size wdata =>
    cases h : busLocation addr size with
    | none => exact .inl (by simp [busAccess, h])
    | some l => exact .inr ⟨addr, size, wdata, l, rfl, h, by rw [busAccess_write h]⟩

/-- What an access leaves, but for the answer. -/
theorem performAccess_state {a : BusAccess} {s t : State} (h : (busAccess s a).2 = t) :
    performAccess a s = { t with answer := if t.busy then none else some (busAccess s a).1 } := by
  rw [performAccess, h]

/-- No access touches ERRCMD, STRLEN, STRBUF, `rst` or the host's moves. -/
theorem performAccess_frame (a : BusAccess) (s : State) : (performAccess a s).errCmd = s.errCmd ∧
    (performAccess a s).strLen = s.strLen ∧ (performAccess a s).strBuf = s.strBuf ∧
    (performAccess a s).rst = s.rst ∧ (performAccess a s).host = s.host := by
  rcases busAccess_cases s a with h | ⟨_, _, wdata, l, -, -, h⟩ <;> rw [performAccess_state h]
  · exact ⟨rfl, rfl, rfl, rfl, rfl⟩
  · exact writeLocation_frame s wdata l

/-- An access keeps the error held, unless it is a STATUS write, which clears it (60_exceptions.md R263, R265). -/
theorem performAccess_err (a : BusAccess) (s : State) : (performAccess a s).err = s.err ∨
    ∃ wdata, a = .write 0x088#12 8 wdata ∧ (performAccess a s).err = .none := by
  rcases busAccess_cases s a with h | ⟨addr, size, wdata, l, rfl, hl, h⟩ <;> rw [performAccess_state h]
  · exact .inl rfl
  · have err := writeLocation_err s wdata l
    by_cases status : l = .status
    · subst status
      obtain ⟨rfl, rfl⟩ := busLocation_eq_status hl
      exact .inr ⟨wdata, rfl, rfl⟩
    · exact .inl (err.trans (if_neg status))

/-- An access keeps IRQ_EN, unless it is a CTRL write. -/
theorem performAccess_irqEn (a : BusAccess) (s : State) : (performAccess a s).irqEn = s.irqEn ∨
    ∃ wdata, a = .write 0x090#12 8 wdata ∧ (performAccess a s).irqEn = wdata.getLsbD 0 := by
  rcases busAccess_cases s a with h | ⟨addr, size, wdata, l, rfl, hl, h⟩ <;> rw [performAccess_state h]
  · exact .inl rfl
  · have irqEn := writeLocation_irqEn s wdata l
    by_cases ctrl : l = .ctrl
    · subst ctrl
      obtain ⟨rfl, rfl⟩ := busLocation_eq_ctrl hl
      exact .inr ⟨wdata, rfl, rfl⟩
    · exact .inl (irqEn.trans (if_neg ctrl))

/-- An access of an idle block sets BUSY only where no error is held. -/
theorem performAccess_busy {a : BusAccess} {s : State} (idle : s.busy = false)
    (busy : (performAccess a s).busy = true) : (performAccess a s).err = .none := by
  rcases busAccess_cases s a with h | ⟨_, _, wdata, l, -, -, h⟩ <;> rw [performAccess_state h] at busy ⊢
  · rw [idle] at busy
    cases busy
  · exact writeLocation_busy s wdata l idle busy

/-! ## The invariant -/

/-- The part of the invariant about STRBUF and STRLEN (10_state.md R29). -/
structure BufferInv (s : State) : Prop where
  canonical : Memory.wf s.strBuf = true
  inside : ∀ cell ∈ s.strBuf, cell.1 < Config.strBufSize
  text : ∀ i, i < s.strLen.toNat → IsDigitOf 16 (s.strByte i)
  zero : ∀ i, s.strLen.toNat ≤ i → s.strByte i = 0#8

theorem State.Inv.buffer {s : State} (h : s.Inv) : BufferInv s := ⟨h.bufCanonical, h.bufInside, h.bufText, h.bufZero⟩

theorem BufferInv.congr {s t : State} (h : BufferInv s) (strLen : t.strLen = s.strLen) (strBuf : t.strBuf = s.strBuf) :
    BufferInv t := by
  obtain ⟨canonical, inside, text, zero⟩ := h
  constructor <;> simpa only [State.strByte, strLen, strBuf]

/-- A text of digits that fits leaves the buffer in its form (46_string.md R244). -/
theorem bufferInv_storeText {t : List Byte} (fits : t.length < 256) (digits : ∀ c ∈ t, IsDigitOf 16 c) (s : State) :
    BufferInv (s.storeText t) where
  canonical := textBuf_wf t
  inside cell h := by
    obtain ⟨-, inside⟩ := textBuf_inside t 0 cell h
    rw [Config.strBufSize]
    omega
  text i h := by
    rw [storeText_strLen_toNat fits] at h
    rw [storeText_strByte, List.getD_eq_getElem _ _ h]
    exact digits _ (List.getElem_mem h)
  zero i h := storeText_strByte_past ((storeText_strLen_toNat fits s) ▸ h) s

/-- The effect of a word keeps the buffer's form. -/
theorem Effect.OfWord.buffer {c : CmdWord} {e : Effect} (word : e.OfWord c) {s : State} (h : BufferInv s) :
    BufferInv (e.apply s) := by
  cases e with
  | raise code => exact h.congr rfl rfl
  | write values =>
    obtain ⟨u, hu⟩ := Effect.apply_write_eq values s
    rw [hu]
    exact h.congr rfl rfl
  | text t =>
    obtain ⟨fits, digits⟩ := word
    exact bufferInv_storeText fits digits s

/-- The effect of a word leaves the error held explained, where none was held before. -/
theorem Effect.OfWord.explained {e : Effect} {s : State} (word : e.OfWord s.pending) (h : s.err = .none) :
    ErrorExplained (e.apply s) := by
  cases e with
  | raise code => exact word _ rfl rfl
  | write values => exact errorExplained_of_clear (Effect.apply_err _ h)
  | text t => exact errorExplained_of_clear h

/-- With `rst` released, the invariant is the buffer's, the two about BUSY, and that ERRCMD explains the error. -/
theorem inv_of_released {s : State} (released : s.rst = false) (buffer : BufferInv s)
    (clear : s.busy = true → s.err = .none) (unanswered : s.busy = true → s.answer = none)
    (explained : ErrorExplained s) : s.Inv :=
  ⟨buffer.canonical, buffer.inside, buffer.text, buffer.zero, clear, unanswered, explained,
    fun asserted => absurd (released.symm.trans asserted) (by decide)⟩

/-- The reset state meets the invariant, at either level of `rst` and whatever the host does next (R35, R290). -/
theorem inv_of_reset (level : Bool) (host : List HostEvent) : State.Inv { State.reset with rst := level, host } where
  bufCanonical := rfl
  bufInside := nofun
  bufText := nofun
  bufZero _ _ := rfl
  busyClear := nofun
  busyUnanswered := nofun
  errExplained := trivial
  heldReset asserted := by
    obtain rfl : level = true := asserted
    rfl

/-- The host's moves do not matter for the invariant. -/
theorem State.Inv.host {s : State} (h : s.Inv) (host : List HostEvent) : State.Inv { s with host } :=
  { h with heldReset := fun asserted => congrArg (fun t : State => { t with host }) (h.heldReset asserted) }

/-- Under the invariant nothing is in flight while `rst` is asserted. -/
theorem State.Inv.released_of_busy {s : State} (h : s.Inv) (busy : s.busy = true) : s.rst = false := by
  by_contra asserted
  rw [h.heldReset (Bool.eq_true_of_not_eq_false asserted)] at busy
  cases busy

theorem driveReset_keeps_inv {s : State} (h : s.Inv) (level : Bool) : (driveReset level s).Inv := by
  unfold driveReset
  split
  · exact inv_of_reset level s.host
  · exact h

theorem complete_keeps_inv {s t : State} (h : s.Inv) (busy : s.busy = true) (ht : complete s = .next t) : t.Inv := by
  have clear := h.busyClear busy
  obtain ⟨e, word, he⟩ := complete_of_clear clear
  rw [he] at ht
  cases ht
  obtain ⟨-, -, -, rst, -⟩ := e.apply_frame s
  exact inv_of_released (rst.trans (h.released_of_busy busy)) ((word.buffer h.buffer).congr rfl rfl) nofun nofun
    ((word.explained clear).congr rfl rfl)

theorem performAccess_keeps_inv {s : State} (h : s.Inv) (released : s.rst = false) (idle : s.busy = false)
    (a : BusAccess) : (performAccess a s).Inv := by
  obtain ⟨errCmd, strLen, strBuf, rst, -⟩ := performAccess_frame a s
  refine inv_of_released (rst.trans released) (h.buffer.congr strLen strBuf) (performAccess_busy idle)
    (performAccess_unanswered a s).2 ?_
  rcases performAccess_err a s with kept | ⟨-, -, cleared⟩
  · exact h.errExplained.congr kept errCmd
  · exact errorExplained_of_clear cleared

/-- Settles O50: each kind of step keeps the invariant. -/
theorem stepKeepsInvariant : Obligations.StepKeepsInvariant := by
  intro s t h ht
  rcases step_cases s with ⟨level, rest, -, hs⟩ | ⟨_, _, -, -, hs⟩ | ⟨busy, hs⟩ |
    ⟨a, rest, ⟨-, released, idle⟩, hs⟩ | ⟨rest, -, -, hs⟩ | ⟨-, -, hs⟩ <;> rw [hs] at ht
  · cases ht
    exact driveReset_keeps_inv (h.host rest) level
  · cases ht
  · exact complete_keeps_inv h busy ht
  · cases ht
    exact performAccess_keeps_inv (h.host rest) released idle a
  · cases ht
    exact h.host rest
  · cases ht
    exact h

/-- Settles O51: the reset state with `rst` released and no moves. -/
theorem resetHasInvariant : Obligations.ResetHasInvariant := inv_of_reset false []

end Sys2Proof.Machine
end

section
/-! What a step does, host move by host move (20_memory.md R56, R60, R64; 60_exceptions.md; 70_reset_and_hazards.md), and
the end of a run (R300). -/

namespace Sys2Proof.Machine

/-! ## Accesses of an idle block -/

/-- A step that performs a write to a mapped location. -/
theorem step_write {addr : Offset} {size : Nat} {l : Location} (h : busLocation addr size = some l) {wdata : Limb}
    {rest : List HostEvent} {s : State} (asked : Accessing (.write addr size wdata) rest s) :
    step s = .next { writeLocation { s with host := rest } wdata l with
      answer := if (writeLocation { s with host := rest } wdata l).busy then none else some .okay } := by
  rw [step_access asked, performAccess, busAccess_write h]

/-- A read leaves the state (R60). -/
theorem busAccess_read_state (s : State) (addr : Offset) (size : Nat) : (busAccess s (.read addr size)).2 = s := by
  rw [busAccess]
  split <;> rfl

/-- What a read answers does not depend on the host's side. -/
theorem busAccess_read_answer (s : State) (addr : Offset) (size : Nat) (host : List HostEvent)
    (answer : Option BusAnswer) :
    (busAccess { s with host, answer } (.read addr size)).1 = (busAccess s (.read addr size)).1 := by
  cases h : busLocation addr size with
  | none => simp [busAccess, h]
  | some l =>
    rw [busAccess_read h, busAccess_read h]
    cases l <;> rfl

/-- A step that performs a read changes the answer only. -/
theorem step_read {addr : Offset} {size : Nat} {rest : List HostEvent} {s : State} {ans : BusAnswer}
    (asked : Accessing (.read addr size) rest s) (answers : (busAccess s (.read addr size)).1 = ans) :
    step s = .next { s with host := rest, answer := some ans } := by
  have ⟨_, _, idle⟩ := asked
  rw [step_access asked, performAccess_state (busAccess_read_state ..), busAccess_read_answer s addr size rest s.answer,
    answers, idle]
  rfl

/-- A CMD write with no error held is accepted (R56). -/
theorem step_cmd_of_clear {wdata : Limb} {rest : List HostEvent} {s : State}
    (asked : Accessing (.write 0x080#12 8 wdata) rest s) (clear : s.err = .none) : step s = .next
      { s with busy := true, pending := wdata.extractLsb' 0 32, host := rest, answer := none } := by
  rw [step_write busLocation_cmd asked, writeLocation, issueCommand, if_pos clear,
    BitVec.setWidth_eq_extractLsb' (by decide)]
  rfl

/-- Settles O8: the write is the access of CMD, and the completion answers it whatever the word. -/
theorem commandWriteAcceptsOrDiscards : Obligations.CommandWriteAcceptsOrDiscards := by
  refine ⟨fun s rest wdata asked => ⟨step_cmd_of_clear asked, fun held => ?_⟩, fun s flying => ?_,
    fun s rest asked => ?_⟩
  · have ⟨_, _, idle⟩ := asked
    rw [step_write busLocation_cmd asked, writeLocation, issueCommand, if_neg held, idle]
    rfl
  · obtain ⟨t, ht, idle, answered, -⟩ := complete_answers_next s
    exact ⟨t, (step_inFlight flying).trans ht, idle, answered⟩
  · exact step_read asked (by rw [busAccess_read busLocation_cmd]; rfl)

/-- Settles O20: the answer does not depend on what the first read changes. -/
theorem readsAreIdempotent : Obligations.ReadsAreIdempotent := by
  intro s addr size rest asked
  have ⟨_, released, idle⟩ := asked
  exact ⟨_, step_read asked rfl, step_read ⟨rfl, released, idle⟩ (busAccess_read_answer ..)⟩

/-- Settles O21: the write is the access of STATUS, and it leaves a state in which a CMD write is accepted. -/
theorem statusWriteClearsErrorOnly : Obligations.StatusWriteClearsErrorOnly := by
  intro s wdata next rest asked
  have ⟨_, released, idle⟩ := asked
  refine ⟨_, rfl, ?_, step_cmd_of_clear ⟨rfl, released, idle⟩ rfl⟩
  rw [step_write busLocation_status asked]
  simp [writeLocation, State.clearError, idle]

/-! ## Reset, the stop, and idling -/

/-- Settles O11: the step drives `rst`, and either level then resets. -/
theorem resetTakesEffectAtOnce : Obligations.ResetTakesEffectAtOnce := by
  intro s level rest asked moves
  rw [step_rst asked, driveReset, if_pos (by simpa using moves)]

/-- An access while `rst` is asserted stops the machine (R291). -/
theorem step_access_in_reset {a : BusAccess} {rest : List HostEvent} {s : State} (asserted : s.rst = true)
    (asked : s.host = .access a :: rest) : step s = .fault .accessDuringReset := by
  simp [step, advance, asked, asserted]

/-- A step stops at an access during reset, or answers a next state. -/
theorem step_stops_or_next (s : State) :
    (s.rst = true ∧ (∃ a rest, s.host = .access a :: rest) ∧ step s = .fault .accessDuringReset) ∨
    ∃ t, step s = .next t := by
  rcases step_cases s with ⟨_, _, -, hs⟩ | ⟨a, rest, asked, asserted, hs⟩ | ⟨-, hs⟩ | ⟨_, _, -, hs⟩ | ⟨_, -, -, hs⟩ |
    ⟨-, -, hs⟩
  · exact .inr ⟨_, hs⟩
  · exact .inl ⟨asserted, ⟨a, rest, asked⟩, hs⟩
  · obtain ⟨t, ht, -⟩ := complete_answers_next s
    exact .inr ⟨t, hs.trans ht⟩
  · exact .inr ⟨_, hs⟩
  · exact .inr ⟨_, hs⟩
  · exact .inr ⟨_, hs⟩

/-- Settles O13: only the access during reset stops, and it does. -/
theorem onlyAccessDuringResetStops : Obligations.OnlyAccessDuringResetStops := by
  intro s
  rcases step_stops_or_next s with ⟨asserted, asked, hs⟩ | ⟨t, hs⟩
  · exact ⟨iff_of_true ⟨_, hs⟩ ⟨asserted, asked⟩, by simp [hs]⟩
  · refine ⟨iff_of_false (by simp [hs]) ?_, by simp [hs]⟩
    rintro ⟨asserted, a, rest, asked⟩
    rw [step_access_in_reset asserted asked] at hs
    cases hs

/-- Settles O14: with nothing to complete, the step of a wait or of no move passes the wait only. -/
theorem idleBlockHoldsItsState : Obligations.IdleBlockHoldsItsState := by
  intro s idle
  refine ⟨fun asked => ?_, fun rest asked => ?_⟩ <;> simp [step, advance, asked, idle]

/-! ## Held errors and the interrupt -/

/-- With an error held, a step drives `rst`, performs an access, or keeps ERR, ERRCMD and IRQ_EN. -/
theorem step_of_held {s t : State} (held : s.err ≠ .none) (ht : step s = .next t) :
    (∃ level rest, s.host = .rst level :: rest) ∨
    (∃ a rest, s.host = .access a :: rest ∧ t = performAccess a { s with host := rest }) ∨
    (t.err = s.err ∧ t.errCmd = s.errCmd ∧ t.irqEn = s.irqEn) := by
  rcases step_cases s with ⟨level, rest, asked, hs⟩ | ⟨_, _, -, -, hs⟩ | ⟨-, hs⟩ | ⟨a, rest, ⟨asked, -⟩, hs⟩ |
    ⟨_, -, -, hs⟩ | ⟨-, -, hs⟩ <;> rw [hs] at ht
  · exact .inl ⟨level, rest, asked⟩
  · cases ht
  · rw [complete_of_held held] at ht
    cases ht
    exact .inr (.inr ⟨rfl, rfl, rfl⟩)
  · cases ht
    exact .inr (.inl ⟨a, rest, asked, rfl⟩)
  · cases ht
    exact .inr (.inr ⟨rfl, rfl, rfl⟩)
  · cases ht
    exact .inr (.inr ⟨rfl, rfl, rfl⟩)

/-- Settles O48: with an error held only a STATUS write among the accesses changes ERR, and none changes ERRCMD. -/
theorem firstErrorIsKept : Obligations.FirstErrorIsKept := by
  intro s t held ht
  rcases step_of_held held ht with moves | ⟨a, rest, asked, rfl⟩ | ⟨err, errCmd, -⟩
  · exact .inr (.inl moves)
  · obtain ⟨errCmd, -⟩ := performAccess_frame a { s with host := rest }
    rcases performAccess_err a { s with host := rest } with err | ⟨wdata, rfl, cleared⟩
    · exact .inl ⟨err, errCmd⟩
    · exact .inr (.inr ⟨wdata, rest, asked, cleared, errCmd⟩)
  · exact .inl ⟨err, errCmd⟩

/-- The interrupt output, in terms of the two fields that make it (60_exceptions.md R264). -/
theorem State.irq_iff (s : State) : s.irq = true ↔ s.err ≠ .none ∧ s.irqEn = true := by
  simp [State.irq]

/-- The interrupt output depends on ERR and IRQ_EN only. -/
theorem State.irq_congr {s t : State} (err : t.err = s.err) (irqEn : t.irqEn = s.irqEn) : t.irq = s.irq := by
  rw [State.irq, State.irq, err, irqEn]

/-- Settles O22: a step that is no move of `rst` keeps ERR or clears it by a STATUS write, and keeps IRQ_EN or sets it
by a CTRL write; where both are kept `irq` is as before. -/
theorem interruptFollowsHeldError : Obligations.InterruptFollowsHeldError := by
  refine ⟨State.irq_iff, fun s wdata rest asked held => ?_, fun s t high ht low => ?_⟩
  · refine ⟨_, step_write busLocation_ctrl asked, ?_⟩
    simp [State.irq, writeLocation, held]
  · obtain ⟨held, -⟩ := (State.irq_iff s).1 high
    have moved {t : State} (low : t.irq = false) (err : t.err = s.err) (irqEn : t.irqEn = s.irqEn) : False := by
      rw [State.irq_congr err irqEn, high] at low
      cases low
    rcases step_of_held held ht with moves | ⟨a, rest, asked, rfl⟩ | ⟨err, -, irqEn⟩
    · exact .inl moves
    · rcases performAccess_err a { s with host := rest } with err | ⟨wdata, rfl, -⟩
      · rcases performAccess_irqEn a { s with host := rest } with irqEn | ⟨wdata, rfl, irqEn⟩
        · exact (moved low err irqEn).elim
        · refine .inr (.inr ⟨wdata, rest, asked, ?_⟩)
          by_contra bit
          rw [Bool.not_eq_false] at bit
          rw [(State.irq_iff _).2 ⟨err ▸ held, irqEn.trans bit⟩] at low
          cases low
      · exact .inr (.inl ⟨wdata, rest, asked⟩)
    · exact (moved low err irqEn).elim

/-! ## The end of a run (R300) -/

/-- Settles O52: an access is unanswered just when it leaves a command in flight, and the completion that follows
answers it; `rst` and the host's moves stay as they were. -/
theorem runEndsWithLastAnswer : Obligations.RunEndsWithLastAnswer := by
  intro s a rest asked
  have ⟨_, released, _⟩ := asked
  obtain ⟨-, -, -, rst, host⟩ := performAccess_frame a { s with host := rest }
  have unanswered := performAccess_unanswered a { s with host := rest }
  refine ⟨_, step_access asked, unanswered, fun last => ?_, fun waits next => ?_⟩
  · rw [runEnded_iff, host, ne_eq, unanswered]
    simp [last]
  · have flying : InFlight (performAccess a { s with host := rest }) :=
      ⟨unanswered.1 waits, rst.trans released, by rwa [host]⟩
    obtain ⟨v, hv, idle, answered, -, host'⟩ := complete_answers_next (performAccess a { s with host := rest })
    refine ⟨v, (step_inFlight flying).trans hv, answered, idle, fun last => (runEnded_iff v).2 ⟨?_, idle⟩⟩
    rw [host', host]
    exact last

end Sys2Proof.Machine
end

section
/-! The observable end state (70_reset_and_hazards.md R300): what the reads of its offsets return determines the values
they show. -/

namespace Sys2Proof.Machine

/-- STATUS shows which error is held (R25). -/
theorem statusImage_inj (s t : State) : statusImage s = statusImage t ↔ s.err = t.err := by
  unfold statusImage
  cases s.err <;> cases t.err <;> decide

/-- CTRL shows IRQ_EN (R26). -/
theorem ctrlImage_inj (s t : State) : ctrlImage s = ctrlImage t ↔ s.irqEn = t.irqEn := by
  unfold ctrlImage
  cases s.irqEn <;> cases t.irqEn <;> decide

/-- A field shown in a limb with zeros above it is shown whole. -/
theorem setWidth_limb_inj {w : Nat} (fits : w ≤ 64) (x y : BitVec w) :
    x.setWidth 64 = y.setWidth 64 ↔ x = y := by
  rw [← BitVec.toNat_inj, BitVec.toNat_setWidth_of_le fits, BitVec.toNat_setWidth_of_le fits, BitVec.toNat_inj]

/-- The two limbs show the register. -/
theorem limbs_inj (x y : U128) : lowLimb x = lowLimb y ∧ highLimb x = highLimb y ↔ x = y := by
  constructor
  · rintro ⟨low, high⟩
    rw [← ofLimbs_limbs x, low, high, ofLimbs_limbs]
  · rintro rfl
    exact ⟨rfl, rfl⟩

/-- A STRBUF word shows its eight bytes (R58). -/
theorem strWord_inj (s t : State) (k : Fin 32) :
    strWord s k = strWord t k ↔ ∀ j < 8, s.strByte (8 * k + j) = t.strByte (8 * k + j) := by
  constructor
  · intro h j hj
    rw [← strWord_byte s k hj, h, strWord_byte t k hj]
  · intro h
    simp only [strWord]
    rw [h 7 (by decide), h 6 (by decide), h 5 (by decide), h 4 (by decide), h 3 (by decide), h 2 (by decide),
      h 1 (by decide), h 0 (by decide)]

/-- The 32 words show the 256 bytes. -/
theorem strWords_inj (s t : State) :
    (∀ k, strWord s k = strWord t k) ↔ ∀ i < 256, s.strByte i = t.strByte i := by
  simp only [strWord_inj]
  constructor
  · intro h i hi
    have byte := h ⟨i / 8, by omega⟩ (i % 8) (Nat.mod_lt i (by decide))
    rwa [Nat.div_add_mod] at byte
  · intro h k j hj
    exact h _ (by omega)

/-- Equal end states are equal reads, location by location. -/
theorem endState_eq_iff (s t : State) : endState s = endState t ↔
    (∀ n, lowLimb (s.getU n) = lowLimb (t.getU n)) ∧ (∀ n, highLimb (s.getU n) = highLimb (t.getU n)) ∧
    statusImage s = statusImage t ∧ ctrlImage s = ctrlImage t ∧ s.errCmd.setWidth 64 = t.errCmd.setWidth 64 ∧
    s.strLen.setWidth 64 = t.strLen.setWidth 64 ∧ ∀ k, strWord s k = strWord t k := by
  have answer {addr : Offset} {l : Location} (h : busLocation addr 8 = some l) (s : State) :
      (busAccess s (.read addr Config.busSize)).1 = .data (readLocation s l) := by
    rw [Config.busSize, busAccess_read h]
  simp only [endState, List.map_inj_left, mem_readableOffsets, or_imp, forall_and, forall_exists_index,
    forall_apply_eq_imp_iff, forall_eq, answer (busLocation_low _), answer (busLocation_high _),
    answer busLocation_status, answer busLocation_ctrl, answer busLocation_errCmd, answer busLocation_strLen,
    answer (busLocation_strBuf _), BusAnswer.data.injEq, readLocation]

/-- Settles O53: each offset is a mapped location, and each location shows its value whole. -/
theorem endStateIsReadable : Obligations.EndStateIsReadable := by
  refine ⟨fun s a ha => ?_, fun s t => ?_⟩
  · obtain ⟨l, hl⟩ := readable_location ha
    exact ⟨_, busAccess_read hl s⟩
  · rw [endState_eq_iff, statusImage_inj, ctrlImage_inj, setWidth_limb_inj (by decide), setWidth_limb_inj (by decide),
      strWords_inj, ← and_assoc, ← forall_and]
    simp only [limbs_inj]

end Sys2Proof.Machine
end

section
/-! What single commands raise (30_encoding.md R88 f and h; 45_divide.md R213). -/

namespace Sys2Proof.Machine

/-- Settles O26: each of the two forms has raising ILLEGAL for its effect. -/
theorem unencodableFormsRaiseIllegal : Obligations.UnencodableFormsRaiseIllegal := fun s d a b clear =>
  ⟨((means_widen d a true .bool).runs s).trans (command_of_clear clear _),
    ((means_divmod_same a b d).runs s).trans (command_of_clear clear _)⟩

/-- Settles O38: all three commands make the divider's check, before effects that leave ERR as it is. -/
theorem zeroDivisorRaisesDomain : Obligations.ZeroDivisorRaisesDomain := by
  intro s d r a b i clear hi
  have raises : ∃ effect, exec i s = command (dividing b effect) s ∧ (effect s).err = s.err := by
    obtain rfl | rfl | ⟨rfl, differ⟩ := hi
    · exact ⟨_, rfl, rfl⟩
    · exact ⟨_, rfl, rfl⟩
    · exact ⟨writeBoth d r a b, command_congr (if_neg differ), rfl⟩
  obtain ⟨effect, runs, err⟩ := raises
  refine ⟨fun zero => ?_, fun nonzero => completesWith_of_command runs clear ?_⟩
  · rw [runs, command_of_clear clear, dividing_zero zero]
    rfl
  · rw [dividing_nonzero nonzero, err, clear]

end Sys2Proof.Machine
end

section
/-! The laws of subtraction (44_arith.md R190) and the long division (45_divide.md R215). -/

namespace Sys2Proof.Machine

/-- Adding the negation subtracts, modulo 2^128 (R190). -/
theorem trunc128_add_neg (x y : U128) :
    trunc128 (val x + val (trunc128 ((2 ^ 128 - 1 - val y) + 1))) = truncInt128 ((val x : Int) - val y) := by
  have hy := val_lt y
  apply trunc128_eq
  have := val_truncInt128 ((val x : Int) - val y)
  rw [val_trunc128]
  omega

/-- Settles O35: NEG leaves the first source alone, and its complement plus one is added modulo 2^128. -/
theorem subtractionAddsNegation : Obligations.SubtractionAddsNegation := by
  intro s d a b p clear differ
  constructor
  · refine ⟨_, _, _, command_of_clear clear _, exec_add ((unary_changesOnly ..).err.trans clear) d a p,
      command_of_clear clear _, ?_⟩
    rw [binary_getU, binary_getU, unary_getU, (unary_changesOnly ..).regs a (by simp [differ.symm]), trunc128_add_neg]
  · intro one
    refine ⟨_, _, exec_add clear d a b, command_of_clear clear _, ?_⟩
    rw [binary, unary, one]
    rfl

/-- What the long division holds with `x` bit positions left: `q` and `r` are the quotient and the remainder of the bits
of the dividend read so far. -/
def DivisionState (n m : U128) (x : Nat) (q r : U128) : Prop :=
  val n / 2 ^ x = val q * val m + val r ∧ val r < val m

/-- The running remainder with the next bit of the dividend at its end. -/
def shiftIn (n : U128) (x : Nat) (r : U128) : U128 := if n.getLsbD x then r <<< 1 ||| 1 else r <<< 1

theorem longDivideLoop_succ (n m : U128) (x : Nat) (q r : U128) : longDivideLoop n m (x + 1) q r =
    if m ≤ shiftIn n x r then longDivideLoop n m x (q <<< 1 + 1) (shiftIn n x r - m)
    else longDivideLoop n m x (q <<< 1) (shiftIn n x r) := rfl

/-- The bits down to position `x` are the bits above it, doubled, and bit `x`. -/
theorem div_two_pow_eq (n x : Nat) : n / 2 ^ x = 2 * (n / 2 ^ (x + 1)) + n / 2 ^ x % 2 := by
  rw [Nat.pow_succ, ← Nat.div_div_eq_div_mul, Nat.div_add_mod]

theorem val_shiftLeft_one {v : U128} (fits : 2 * val v < 2 ^ 128) : val (v <<< 1) = 2 * val v := by
  rw [val, BitVec.toNat_shiftLeft, Nat.shiftLeft_eq, Nat.mul_comm, pow_one]
  exact Nat.mod_eq_of_lt fits

theorem val_shiftIn {n r : U128} {x : Nat} (fits : 2 * val r < 2 ^ 128) :
    val (shiftIn n x r) = 2 * val r + val n / 2 ^ x % 2 := by
  have bit : n.getLsbD x = decide (val n / 2 ^ x % 2 = 1) := Nat.testBit_eq_decide_div_mod_eq
  rw [shiftIn, bit]
  rcases Nat.mod_two_eq_zero_or_one (val n / 2 ^ x) with zero | one
  · rw [zero]
    exact val_shiftLeft_one fits
  · rw [one]
    calc (r <<< 1 ||| 1).toNat
        = val (r <<< 1) ||| 1 := BitVec.toNat_or ..
      _ = 2 * val r ||| 1 := by rw [val_shiftLeft_one fits]
      _ = 2 * val r + 1 := (Nat.two_pow_add_eq_or_of_lt (i := 1) (by decide) (val r)).symm

/-- Reading one more bit: the running values double within 128 bits, since together they make up the bits read. -/
theorem DivisionState.shift {n m q r : U128} {x : Nat} (h : DivisionState n m (x + 1) q r) :
    val (q <<< 1) = 2 * val q ∧ val n / 2 ^ x = 2 * val q * val m + val (shiftIn n x r) ∧
      val (shiftIn n x r) < 2 * val m := by
  obtain ⟨bits, below⟩ := h
  have next := div_two_pow_eq (val n) x
  have bound : val n / 2 ^ x < 2 ^ 128 := (Nat.div_le_self ..).trans_lt (val_lt n)
  have quotient : val q ≤ val q * val m := Nat.le_mul_of_pos_right _ (by omega)
  rw [val_shiftLeft_one (by omega), val_shiftIn (by omega), Nat.mul_assoc]
  omega

/-- The divisor fits into the running remainder: it is taken off, and the quotient gets a 1. -/
theorem DivisionState.subtract {n m q r : U128} {x : Nat} (h : DivisionState n m (x + 1) q r)
    (fits : m ≤ shiftIn n x r) : DivisionState n m x (q <<< 1 + 1) (shiftIn n x r - m) := by
  obtain ⟨double, bits, below⟩ := h.shift
  have le : val m ≤ val (shiftIn n x r) := fits
  have bound : val n / 2 ^ x < 2 ^ 128 := (Nat.div_le_self ..).trans_lt (val_lt n)
  have twice : 2 * val q ≤ 2 * val q * val m := Nat.le_mul_of_pos_right _ (by omega)
  have plusOne : val (q <<< 1 + 1) = 2 * val q + 1 := by
    rw [val, BitVec.toNat_add, ← val, double]
    exact Nat.mod_eq_of_lt (a := 2 * val q + 1) (by omega)
  have rest : val (shiftIn n x r - m) = val (shiftIn n x r) - val m := BitVec.toNat_sub_of_le fits
  rw [DivisionState, plusOne, rest, Nat.succ_mul]
  omega

/-- The divisor does not fit: the quotient gets a 0. -/
theorem DivisionState.keep {n m q r : U128} {x : Nat} (h : DivisionState n m (x + 1) q r)
    (exceeds : ¬m ≤ shiftIn n x r) : DivisionState n m x (q <<< 1) (shiftIn n x r) := by
  obtain ⟨double, bits, -⟩ := h.shift
  exact ⟨by rw [double, bits], Nat.lt_of_not_le exceeds⟩

/-- With no bit left the running values are the results. -/
theorem DivisionState.result {n m q r : U128} (h : DivisionState n m 0 q r) :
    (q, r) = (quotient n m, remainder n m) := by
  obtain ⟨division, below⟩ := h
  rw [Nat.pow_zero, Nat.div_one] at division
  have unique : val n / val m = val q ∧ val n % val m = val r :=
    (Nat.div_mod_unique (by omega)).2 ⟨by rw [division, Nat.mul_comm, Nat.add_comm], below⟩
  rw [quotient, remainder, unique.1, unique.2, trunc128_val, trunc128_val]

/-- The loop keeps `DivisionState`, bit by bit (R215). -/
theorem longDivideLoop_eq {n m : U128} (x : Nat) {q r : U128} (h : DivisionState n m x q r) :
    longDivideLoop n m x q r = (quotient n m, remainder n m) := by
  induction x generalizing q r with
  | zero => exact h.result
  | succ x ih =>
    rw [longDivideLoop_succ]
    split
    · next fits => exact ih (h.subtract fits)
    · next exceeds => exact ih (h.keep exceeds)

/-- Settles O39: each shortcut has the quotient and the remainder at hand, and the loop starts with all bits of the
dividend left. -/
theorem longDivisionIsDivision : Obligations.LongDivisionIsDivision := by
  intro n m nonzero
  have pos : 0 < val m := Nat.pos_of_ne_zero fun zero => nonzero (BitVec.eq_of_toNat_eq zero)
  unfold longDivide
  split_ifs with one same small
  · exact DivisionState.result ⟨by simp [one, val], pos⟩
  · exact DivisionState.result ⟨by simp [same, val], pos⟩
  · have below : val n < val m := small.elim (fun zero => by rwa [zero]) id
    exact DivisionState.result ⟨by simp [val], below⟩
  · have all : val n < 2 ^ bitLength (val n) := (bitLength_le_iff ..).1 le_rfl
    exact longDivideLoop_eq _ ⟨by rw [Nat.div_eq_of_lt all]; simp [val], pos⟩

end Sys2Proof.Machine
end
